-- ==== Sys2Proof/Word.lean ====
section
/-! DEFINITION. The word, byte and register-number types of the core (spec 00_scope.md R4, R7; 10_state.md R10). -/

namespace Sys2Proof

/-- A 16-bit word: the one unit of registers, memory cells and addresses (R4, R7). -/
abbrev Word := BitVec 16

/-- An 8-bit byte of the input and output streams (10_state.md R19). -/
abbrev Byte := BitVec 8

/-- The number of a general register, 0 to 7: a 3-bit field can name no other (R10, R11). -/
abbrev Reg := Fin 8

end Sys2Proof
end

