-- ==== Sys2Proof/Syntax.lean ====
section
/-! DEFINITION. The instructions: one constructor per row of spec/opcode_table.json (spec 30_encoding.md R51, R56). -/

namespace Sys2Proof

/-- The sixteen handler slots selected by `instr[15:12]` (R56). ADD and AND each hold two modes,
`jsr` holds JSR and JSRR (R54). -/
inductive Opcode where
  | br | add | ld | st | jsr | and | ldr | str | rti | not | ldi | sti | jmp | res | lea | trap
  deriving DecidableEq, Repr

/-- A decoded instruction. A signed field is carried as the 16-bit word its sign extension gives
(R9, R53; log 12); `Instr.wf` says which words those are. Ignored bits are dropped (R55), but for
RTI, RES and TRAP, whose failure records the whole instruction word (R150; log 11). -/
inductive Instr where
  /-- BR (R90): `nzp` is `instr[11:9]`, n the most significant; `off` is sext_9(PCoffset9). -/
  | br (nzp : BitVec 3) (off : Word)
  /-- ADD, register mode (R80). -/
  | addReg (dr sr1 sr2 : Reg)
  /-- ADD, immediate mode (R81): `imm` is sext_5(imm5). -/
  | addImm (dr sr1 : Reg) (imm : Word)
  /-- LD (R101): `off` is sext_9(PCoffset9). -/
  | ld (dr : Reg) (off : Word)
  /-- ST (R105): `off` is sext_9(PCoffset9). -/
  | st (sr : Reg) (off : Word)
  /-- JSRR (R94). -/
  | jsrr (base : Reg)
  /-- JSR (R93): `off` is sext_11(PCoffset11). -/
  | jsr (off : Word)
  /-- AND, register mode (R82). -/
  | andReg (dr sr1 sr2 : Reg)
  /-- AND, immediate mode (R83): `imm` is sext_5(imm5). -/
  | andImm (dr sr1 : Reg) (imm : Word)
  /-- LDR (R103): `off` is sext_6(offset6). -/
  | ldr (dr base : Reg) (off : Word)
  /-- STR (R107): `off` is sext_6(offset6). -/
  | str (sr base : Reg) (off : Word)
  /-- RTI, the unimplemented interrupt-return slot (R135): `ign` is `instr[11:0]`. -/
  | rti (ign : BitVec 12)
  /-- NOT (R84). -/
  | not (dr sr1 : Reg)
  /-- LDI (R102): `off` is sext_9(PCoffset9). -/
  | ldi (dr : Reg) (off : Word)
  /-- STI (R106): `off` is sext_9(PCoffset9). -/
  | sti (sr : Reg) (off : Word)
  /-- JMP (R92). -/
  | jmp (base : Reg)
  /-- RES, the unassigned opcode (R136): `ign` is `instr[11:0]`. -/
  | res (ign : BitVec 12)
  /-- LEA (R104): `off` is sext_9(PCoffset9). -/
  | lea (dr : Reg) (off : Word)
  /-- TRAP (R120): `ign` is `instr[11:8]`, `vect` is trapvect8. -/
  | trap (ign : BitVec 4) (vect : BitVec 8)
  deriving DecidableEq, Repr

/-- The handler slot of an instruction (R56). -/
def Instr.opcode : Instr → Opcode
  | .br _ _ => .br
  | .addReg _ _ _ => .add
  | .addImm _ _ _ => .add
  | .ld _ _ => .ld
  | .st _ _ => .st
  | .jsrr _ => .jsr
  | .jsr _ => .jsr
  | .andReg _ _ _ => .and
  | .andImm _ _ _ => .and
  | .ldr _ _ _ => .ldr
  | .str _ _ _ => .str
  | .rti _ => .rti
  | .not _ _ => .not
  | .ldi _ _ => .ldi
  | .sti _ _ => .sti
  | .jmp _ => .jmp
  | .res _ => .res
  | .lea _ _ => .lea
  | .trap _ _ => .trap

end Sys2Proof
end

