-- ==== Sys2Proof/WellFormed.lean ====
section
/-! DEFINITION. Which terms of `Instr` an instruction word can spell: the operand ranges of spec 30_encoding.md R53. -/

namespace Sys2Proof

/-- The signed reading of `v` lies in the range of an `n`-bit two's-complement field (R53). -/
def fitsSigned (n : Nat) (v : Word) : Bool :=
  decide (-(2 ^ (n - 1) : Int) ≤ v.toInt ∧ v.toInt < (2 ^ (n - 1) : Int))

/-- Well-formed instructions: every immediate or offset is in its field's range (R53): imm5 -16 to
+15, offset6 -32 to +31, PCoffset9 -256 to +255, PCoffset11 -1024 to +1023. Register numbers,
`nzp`, `trapvect8` and ignored bits have every value of their field, by their types. -/
def Instr.wf : Instr → Bool
  | .br _ off => fitsSigned 9 off
  | .addReg _ _ _ => true
  | .addImm _ _ imm => fitsSigned 5 imm
  | .ld _ off => fitsSigned 9 off
  | .st _ off => fitsSigned 9 off
  | .jsrr _ => true
  | .jsr off => fitsSigned 11 off
  | .andReg _ _ _ => true
  | .andImm _ _ imm => fitsSigned 5 imm
  | .ldr _ _ off => fitsSigned 6 off
  | .str _ _ off => fitsSigned 6 off
  | .rti _ => true
  | .not _ _ => true
  | .ldi _ off => fitsSigned 9 off
  | .sti _ off => fitsSigned 9 off
  | .jmp _ => true
  | .res _ => true
  | .lea _ off => fitsSigned 9 off
  | .trap _ _ => true

end Sys2Proof
end

