-- ==== Sys2Proof/Decode.lean ====
section
/-! DEFINITION. The decoder, total on every 16-bit word, and the encoder (spec 30_encoding.md R51 to R57). -/

namespace Sys2Proof

/-- `v[hi:lo]`, the field of `v` from bit `hi` down to bit `lo` inclusive (00_scope.md R7). -/
def bits (hi lo : Nat) (v : Word) : BitVec (hi - lo + 1) := v.extractLsb hi lo

/-- `sext_N(v)` (00_scope.md R9): all higher bits are copies of the field's top bit. -/
def sext {n : Nat} (v : BitVec n) : Word := v.signExtend 16

/-- The number a 3-bit register field names (R52). -/
def regOfBits (b : BitVec 3) : Reg := b.toFin

/-- The 3-bit field that names a register (R52). -/
def regBits (r : Reg) : BitVec 3 := BitVec.ofFin (w := 3) r

/-- The opcode assignment of R56, in this one place: the entry at position k is the handler of
`instr[15:12]` = k. The numbers are the spec's item G1 (log 4). -/
def opcodeTable : Vector Opcode 16 :=
  #v[.br, .add, .ld, .st, .jsr, .and, .ldr, .str, .rti, .not, .ldi, .sti, .jmp, .res, .lea, .trap]

/-- The handler slot an opcode value selects (R56). -/
def Opcode.ofBits (b : BitVec 4) : Opcode := opcodeTable[b.toNat]'b.isLt

/-- The opcode value of a handler slot: its position in the table (R56). -/
def Opcode.bits (o : Opcode) : BitVec 4 := BitVec.ofNat 4 (opcodeTable.toList.idxOf o)

/-- `opcode`: `instr[15:12]` (R52). -/
def opcodeField (w : Word) : BitVec 4 := Sys2Proof.bits 15 12 w
/-- `DR`, also `SR` of the stores: `instr[11:9]` (R52). -/
def drField (w : Word) : Reg := regOfBits (Sys2Proof.bits 11 9 w)
/-- `SR1`, also `BaseR`: `instr[8:6]` (R52). -/
def sr1Field (w : Word) : Reg := regOfBits (Sys2Proof.bits 8 6 w)
/-- `SR2`: `instr[2:0]` (R52). -/
def sr2Field (w : Word) : Reg := regOfBits (Sys2Proof.bits 2 0 w)
/-- `mode`: `instr[5]`, 1 is immediate mode (R52, R54). -/
def modeBit (w : Word) : Bool := Sys2Proof.bits 5 5 w == 1#1
/-- `imm5`: `instr[4:0]` (R52). -/
def imm5Field (w : Word) : BitVec 5 := Sys2Proof.bits 4 0 w
/-- `offset6`: `instr[5:0]` (R52). -/
def offset6Field (w : Word) : BitVec 6 := Sys2Proof.bits 5 0 w
/-- `PCoffset9`: `instr[8:0]` (R52). -/
def pcOffset9Field (w : Word) : BitVec 9 := Sys2Proof.bits 8 0 w
/-- `PCoffset11`: `instr[10:0]` (R52). -/
def pcOffset11Field (w : Word) : BitVec 11 := Sys2Proof.bits 10 0 w
/-- `long`: `instr[11]`, 1 is JSR (R52, R54). -/
def longBit (w : Word) : Bool := Sys2Proof.bits 11 11 w == 1#1
/-- `nzp`: `instr[11:9]` (R52). -/
def nzpField (w : Word) : BitVec 3 := Sys2Proof.bits 11 9 w
/-- `trapvect8`: `instr[7:0]` (R52). -/
def trapvect8Field (w : Word) : BitVec 8 := Sys2Proof.bits 7 0 w

/-- The decoder (R56, R57). It is total and rejects no word: the two unimplemented slots decode to
`rti` and `res` by name (R58). -/
def decode (w : Word) : Instr :=
  match Opcode.ofBits (opcodeField w) with
  | .br => .br (nzpField w) (sext (pcOffset9Field w))
  | .add =>
    if modeBit w then .addImm (drField w) (sr1Field w) (sext (imm5Field w))
    else .addReg (drField w) (sr1Field w) (sr2Field w)
  | .ld => .ld (drField w) (sext (pcOffset9Field w))
  | .st => .st (drField w) (sext (pcOffset9Field w))
  | .jsr => if longBit w then .jsr (sext (pcOffset11Field w)) else .jsrr (sr1Field w)
  | .and =>
    if modeBit w then .andImm (drField w) (sr1Field w) (sext (imm5Field w))
    else .andReg (drField w) (sr1Field w) (sr2Field w)
  | .ldr => .ldr (drField w) (sr1Field w) (sext (offset6Field w))
  | .str => .str (drField w) (sr1Field w) (sext (offset6Field w))
  | .rti => .rti (Sys2Proof.bits 11 0 w)
  | .not => .not (drField w) (sr1Field w)
  | .ldi => .ldi (drField w) (sext (pcOffset9Field w))
  | .sti => .sti (drField w) (sext (pcOffset9Field w))
  | .jmp => .jmp (sr1Field w)
  | .res => .res (Sys2Proof.bits 11 0 w)
  | .lea => .lea (drField w) (sext (pcOffset9Field w))
  | .trap => .trap (Sys2Proof.bits 11 8 w) (trapvect8Field w)

/-- The instruction of a table row's bits: every row is one 16-bit word (R50), and bits above
`nbits` are 0. A longer instruction does not exist. -/
def decodeTableWord (nbits w : Nat) : Option Instr :=
  if nbits ≤ 16 then some (decode (BitVec.ofNat 16 (w % 2 ^ nbits))) else none

/-- Formats PC9 (R51): opcode, register, 9-bit offset. -/
def encodePc9 (op : Opcode) (r : Reg) (off : Word) : Word :=
  op.bits ++ regBits r ++ off.setWidth 9

/-- Format BO6 (R51): opcode, register, base register, 6-bit offset. -/
def encodeBo6 (op : Opcode) (r base : Reg) (off : Word) : Word :=
  op.bits ++ regBits r ++ regBits base ++ off.setWidth 6

/-- Format RRR (R51), the ignored bits 4:3 at their conventional 00. -/
def encodeRrr (op : Opcode) (dr sr1 sr2 : Reg) : Word :=
  op.bits ++ regBits dr ++ regBits sr1 ++ 0b000#3 ++ regBits sr2

/-- Format RRI (R51). -/
def encodeRri (op : Opcode) (dr sr1 : Reg) (imm : Word) : Word :=
  op.bits ++ regBits dr ++ regBits sr1 ++ 1#1 ++ imm.setWidth 5

/-- The encoder, from the formats of R51. Ignored bits the instruction does not carry get the value
R51 gives in parentheses. -/
def encode : Instr → Word
  | .br nzp off => Opcode.bits .br ++ nzp ++ off.setWidth 9
  | .addReg dr sr1 sr2 => encodeRrr .add dr sr1 sr2
  | .addImm dr sr1 imm => encodeRri .add dr sr1 imm
  | .ld dr off => encodePc9 .ld dr off
  | .st sr off => encodePc9 .st sr off
  | .jsrr base => Opcode.bits .jsr ++ 0b000#3 ++ regBits base ++ 0b000000#6
  | .jsr off => Opcode.bits .jsr ++ 1#1 ++ off.setWidth 11
  | .andReg dr sr1 sr2 => encodeRrr .and dr sr1 sr2
  | .andImm dr sr1 imm => encodeRri .and dr sr1 imm
  | .ldr dr base off => encodeBo6 .ldr dr base off
  | .str sr base off => encodeBo6 .str sr base off
  | .rti ign => Opcode.bits .rti ++ ign
  | .not dr sr1 => Opcode.bits .not ++ regBits dr ++ regBits sr1 ++ 0b111111#6
  | .ldi dr off => encodePc9 .ldi dr off
  | .sti sr off => encodePc9 .sti sr off
  | .jmp base => Opcode.bits .jmp ++ 0b000#3 ++ regBits base ++ 0b000000#6
  | .res ign => Opcode.bits .res ++ ign
  | .lea dr off => encodePc9 .lea dr off
  | .trap ign vect => Opcode.bits .trap ++ ign ++ vect

/-- The row of spec/opcode_table.json an instruction stands for, as its (match, mask) pair: a word `w`
is of the row when `w &&& mask = match`. Written from the table, not from the decoder. -/
def Instr.row : Instr → Word × Word
  | .br _ _ => (0x0000, 0xF000)
  | .addReg _ _ _ => (0x1000, 0xF020)
  | .addImm _ _ _ => (0x1020, 0xF020)
  | .ld _ _ => (0x2000, 0xF000)
  | .st _ _ => (0x3000, 0xF000)
  | .jsrr _ => (0x4000, 0xF800)
  | .jsr _ => (0x4800, 0xF800)
  | .andReg _ _ _ => (0x5000, 0xF020)
  | .andImm _ _ _ => (0x5020, 0xF020)
  | .ldr _ _ _ => (0x6000, 0xF000)
  | .str _ _ _ => (0x7000, 0xF000)
  | .rti _ => (0x8000, 0xF000)
  | .not _ _ => (0x9000, 0xF000)
  | .ldi _ _ => (0xA000, 0xF000)
  | .sti _ _ => (0xB000, 0xF000)
  | .jmp _ => (0xC000, 0xF000)
  | .res _ => (0xD000, 0xF000)
  | .lea _ _ => (0xE000, 0xF000)
  | .trap _ _ => (0xF000, 0xF000)

/-- All nineteen rows of spec/opcode_table.json, in its order. -/
def opcodeRows : List (Word × Word) :=
  [(0x0000, 0xF000), (0x1000, 0xF020), (0x1020, 0xF020), (0x2000, 0xF000), (0x3000, 0xF000),
   (0x4000, 0xF800), (0x4800, 0xF800), (0x5000, 0xF020), (0x5020, 0xF020), (0x6000, 0xF000),
   (0x7000, 0xF000), (0x8000, 0xF000), (0x9000, 0xF000), (0xA000, 0xF000), (0xB000, 0xF000),
   (0xC000, 0xF000), (0xD000, 0xF000), (0xE000, 0xF000), (0xF000, 0xF000)]

end Sys2Proof
end

