-- ==== Sys2Proof/Config.lean ====
section
/-! DEFINITION. The parameters a run is launched with (spec 00_scope.md R5). The model has no free value. -/

namespace Sys2Proof

/-- Order of the two bytes of a word in the object file: `OBJ_BYTE_ORDER` (R5, R173). -/
inductive ByteOrder where
  | little
  | big
  deriving DecidableEq, Repr

/-- The launch parameters of R5, each with R5's default. `IMAGE` is not here: it is what the loader
places (`Machine/Boot.lean`). -/
structure Launch where
  /-- `BASE_ADDRESS`. -/
  baseAddress : Word := 0x3000
  /-- `OFFSET`. -/
  offset : Word := 0x0000
  /-- `STRICT_UNIMPLEMENTED`: false, opcodes 1000 and 1101 are no-ops; true, they fail. -/
  strict : Bool := false
  /-- `OBJ_BYTE_ORDER`: matters to the loader only. -/
  byteOrder : ByteOrder := .little
  /-- `INPUT`: what the input services read. -/
  input : List Byte := []
  deriving DecidableEq, Repr

/-- `START` = (`BASE_ADDRESS` + `OFFSET`) mod 65536 (10_state.md R21). -/
def Launch.start (p : Launch) : Word := p.baseAddress + p.offset

end Sys2Proof
end

