-- ==== Sys2Proof/Machine/State.lean ====
section
/-! DEFINITION. The state of the machine, its reset value, and the reasons a step can stop (spec 10_state.md). -/

namespace Sys2Proof.Machine

/-- `RUN` (10_state.md R18). -/
inductive RunState where
  | running
  | halted
  | faulted
  deriving DecidableEq, Repr

/-- `ERR`, the cause of a failure (10_state.md R18, 60_exceptions.md R150). `noError` is the spec's None. -/
inductive Cause where
  | noError
  | invalidTrap
  | unimplementedOpcode
  deriving DecidableEq, Repr

/-- The eight hardwired services of the trap vector table, index 0 to 7 in this order
(43_trap_and_reserved.md R121). -/
inductive Service where
  | getc | out | puts | input | reserved | halt | inu16 | outu16
  deriving DecidableEq, Repr

/-- The Word Store as a list of (word address, word) pairs in canonical form: addresses strictly
rising, none above 0xFFFF, and no entry equal to what an unlisted cell reads as (log 1). The unit of
addressing is the 16-bit word, and a cell has no bytes (20_memory.md R30, R35). -/
abbrev Memory := List (Nat × Word)

/-- What a cell that is not listed reads as: 0x0000 (10_state.md R22, decision D9; log 2). -/
def Memory.unlisted : Word := 0x0000

/-- The canonical form of a memory. -/
abbrev Memory.wf (m : Memory) : Prop :=
  m.Pairwise (fun c d => c.1 < d.1) ∧ ∀ c ∈ m, c.1 < 65536 ∧ c.2 ≠ Memory.unlisted

/-- The architectural state (10_state.md R10 to R20), and beside it the launch's strap and the
service request the core is blocked in. -/
structure State where
  /-- `x[0]` to `x[7]` (R10). -/
  regs : Vector Word 8
  /-- `pc` (R12). -/
  pc : Word
  /-- `COND` (R15). -/
  cond : Word
  /-- `RUN` (R18). -/
  run : RunState
  /-- `ERR` (R18). -/
  err : Cause
  /-- `ERRINFO` (R18). -/
  errinfo : Word
  /-- `Mem`, the Word Store (R19). -/
  mem : Memory
  /-- `In`: the bytes of `INPUT` not yet consumed, the next one first (R19; log 13). -/
  inp : List Byte
  /-- `Out`: the bytes emitted so far, the oldest first (R19). -/
  out : List Byte
  /-- The service request the core is blocked in, while it is (00_scope.md R6, 43 R132; log 7). -/
  outstanding : Option Service
  /-- The strap `STRICT_UNIMPLEMENTED` of this run (00_scope.md R5, R6; log 6). -/
  strict : Bool
  deriving DecidableEq, Repr

/-- Reasons a step stops with a model fault: none. Every failure the spec names is a described next
state (60_exceptions.md R153), no access can fault (20_memory.md R44), and a machine that waits or
has ended stays as it is (log 7, 8, 17). -/
inductive Fault where
  deriving DecidableEq, Repr

/-- Reasons a step is refused. -/
inductive Refusal where
  /-- Raised by an arm of `exec` whose instruction has no meaning yet. No arm does. Safe. -/
  | notModelled (mnemonic : String)
  /-- Raised by service INU16 when the first byte that is not white space is no digit. The spec
  gives such an input no meaning and asks for a refusal (43 R130, 93 U5; log 10). Safe. -/
  | decimalInputMalformed
  /-- Raised by service INU16 when the digits' value exceeds 65535. The spec gives such an input no
  meaning and asks for a refusal (43 R130, 93 U5; log 10). Safe. -/
  | decimalInputTooLarge
  deriving DecidableEq, Repr

/-- The machine right after reset with the default parameters of R5 and no image
(10_state.md R21, R22; 70_reset_and_hazards.md R170). -/
def State.reset : State where
  regs := #v[0, 0, 0, 0, 0, 0, 0, 0]
  pc := 0x3000
  cond := 0x0002
  run := .running
  err := .noError
  errinfo := 0x0000
  mem := []
  inp := []
  out := []
  outstanding := none
  strict := false

end Sys2Proof.Machine
end

