-- ==== Sys2Proof/Machine/Ops.lean ====
section
/-! DEFINITION. The named operations over memory, registers, streams and status, and raising a failure
(spec 00_scope.md R8, 10_state.md, 20_memory.md, 60_exceptions.md R153). -/

namespace Sys2Proof.Machine

/-- The word listed at an address, or what an unlisted cell reads as. -/
def Memory.lookup : Memory → Nat → Word
  | [], _ => Memory.unlisted
  | c :: m, a => if c.1 = a then c.2 else Memory.lookup m a

/-- `MemRead(addr, 1)` (20_memory.md R32). -/
def Memory.read (m : Memory) (a : Word) : Word := Memory.lookup m a.toNat

/-- The cells other than the one at address `a`. -/
def Memory.without (m : Memory) (a : Nat) : Memory := m.filter (fun c => c.1 != a)

/-- Puts a cell in its place by address. -/
def Memory.place (a : Nat) (v : Word) : Memory → Memory
  | [] => [(a, v)]
  | c :: m => if a < c.1 then (a, v) :: c :: m else c :: Memory.place a v m

/-- Replaces the content of the cell at a numeric address, keeping the canonical form. -/
def Memory.put (m : Memory) (a : Nat) (v : Word) : Memory :=
  if v = Memory.unlisted then Memory.without m a else Memory.place a v (Memory.without m a)

/-- `MemWrite(addr, 1, v)` (20_memory.md R33). -/
def Memory.write (m : Memory) (a v : Word) : Memory := Memory.put m a.toNat v

namespace State

/-- `x[r]` (10_state.md R11). -/
def reg (s : State) (r : Reg) : Word := s.regs[r]

/-- `x[r] <- v`; does not touch `COND` (00_scope.md R8). -/
def setReg (s : State) (r : Reg) (v : Word) : State := { s with regs := s.regs.set r v }

/-- `pc <- target` (00_scope.md R8). -/
def setPc (s : State) (target : Word) : State := { s with pc := target }

/-- Overwrites `COND`. -/
def setCond (s : State) (c : Word) : State := { s with cond := c }

/-- `MemRead(a, 1)` (20_memory.md R32). -/
def readMem (s : State) (a : Word) : Word := s.mem.read a

/-- `MemWrite(a, 1, v)` (20_memory.md R33). -/
def writeMem (s : State) (a v : Word) : State := { s with mem := s.mem.write a v }

/-- `Out.emit` of each byte in order (00_scope.md R8). -/
def emit (s : State) (bs : List Byte) : State := { s with out := s.out ++ bs }

/-- Leaves `rest` as what is still to be read of `In` (10_state.md R19). -/
def setInp (s : State) (rest : List Byte) : State := { s with inp := rest }

/-- `RUN <- Halted` (43_trap_and_reserved.md R129). -/
def halt (s : State) : State := { s with run := .halted }

/-- Records the service request the core is blocked in, or that there is none (log 7). -/
def setOutstanding (s : State) (o : Option Service) : State := { s with outstanding := o }

/-- `raise E(info)` (60_exceptions.md R153): the one operation that takes a failure. It writes
`ERR`, `ERRINFO` and `RUN` and nothing else: no register is saved, there is no vector and no
handler, and `pc` keeps its incremented value. No operation returns from it: R155, only reset
leaves Faulted. -/
def raise (s : State) (cause : Cause) (info : Word) : State :=
  { s with err := cause, errinfo := info, run := .faulted }

/-- The word at `pc`: the fetch of R60. -/
def fetchWord (s : State) : Word := s.readMem s.pc

/-- `pc <- (A + 1) mod 65536`: the increment of R60, before decode and execution. -/
def advance (s : State) : State := s.setPc (s.pc + 1)

end State

/-- The code of a failure condition (60_exceptions.md R150). -/
def Cause.code : Cause → Nat
  | .noError => 0
  | .invalidTrap => 1
  | .unimplementedOpcode => 2

/-- The link register, `x[7]` (10_state.md R10). -/
def linkReg : Reg := 7

/-- The I/O register, `x[0]` (10_state.md R10). -/
def ioReg : Reg := 0

end Sys2Proof.Machine
end

