-- ==== Sys2Proof/Machine/Flags.lean ====
section
/-! DEFINITION. The condition codes: their values, `setcc` and the branch test (spec 10_state.md R15, 41_control.md R90). -/

namespace Sys2Proof.Machine

/-- `COND` for negative (R15; the value is the spec's item G3, log 5). -/
def condN : Word := 0x0004
/-- `COND` for zero (R15). -/
def condZ : Word := 0x0002
/-- `COND` for positive (R15). -/
def condP : Word := 0x0001

/-- The flag of a value: zero if it is 0, else negative if bit 15 is set, else positive (R15). -/
def condOf (v : Word) : Word :=
  if v = 0x0000 then condZ else if v.msb then condN else condP

namespace State

/-- `setcc(v)`: overwrites `COND`, never accumulates (R15). -/
def setcc (s : State) (v : Word) : State := s.setCond (condOf v)

/-- `x[DR] <- v` and then `setcc(v)`: the result of the seven instructions of R16. -/
def writeResult (s : State) (dr : Reg) (v : Word) : State := (s.setReg dr v).setcc v

/-- The test of BR: `(COND & zext_3(nzp)) != 0` (41_control.md R90). -/
def branchTaken (s : State) (nzp : BitVec 3) : Bool := s.cond &&& nzp.setWidth 16 != 0

end State

end Sys2Proof.Machine
end

