-- ==== Sys2Proof/Machine/Operands.lean ====
section
/-! DEFINITION. The operand forms: the three addressing modes and the address-only form (spec 42_load_store.md R100). -/

namespace Sys2Proof.Machine

namespace State

/-- PC-relative address `(pc + sext(PCoffset)) mod 65536`, `pc` already incremented (R12, R100).
LEA's value and the targets of BR and JSR are the same sum. -/
def pcRelative (s : State) (off : Word) : Word := s.pc + off

/-- Indirect address: the pointer in the PC-relative cell (R100). -/
def indirect (s : State) (off : Word) : Word := s.readMem (s.pcRelative off)

/-- Base + offset address `(x[BaseR] + sext_6(offset6)) mod 65536` (R100). -/
def baseOffset (s : State) (base : Reg) (off : Word) : Word := s.reg base + off

end State

end Sys2Proof.Machine
end

