-- ==== Sys2Proof/Machine/Control.lean ====
section
/-! DEFINITION. The control-flow instructions (spec 41_control.md R90 to R96). -/

namespace Sys2Proof.Machine

/-- BR (R90, R91). -/
def execBr (nzp : BitVec 3) (off : Word) (s : State) : Host.Outcome State Fault Refusal :=
  .next (if s.branchTaken nzp then s.setPc (s.pcRelative off) else s)

/-- JMP (R92). -/
def execJmp (base : Reg) (s : State) : Host.Outcome State Fault Refusal :=
  .next (s.setPc (s.reg base))

/-- JSR (R93): the return address and the target use the same incremented `pc`. -/
def execJsr (off : Word) (s : State) : Host.Outcome State Fault Refusal :=
  .next ((s.setReg linkReg s.pc).setPc (s.pcRelative off))

/-- JSRR (R94): `x[7]` is written first and `x[BaseR]` read after, so JSRR R7 falls through. -/
def execJsrr (base : Reg) (s : State) : Host.Outcome State Fault Refusal :=
  .next ((s.setReg linkReg s.pc).setPc ((s.setReg linkReg s.pc).reg base))

end Sys2Proof.Machine
end

