-- ==== Sys2Proof/Machine/LoadStore.lean ====
section
/-! DEFINITION. The load, store and address instructions (spec 42_load_store.md R100 to R107). -/

namespace Sys2Proof.Machine

/-- LD (R101). -/
def execLd (dr : Reg) (off : Word) (s : State) : Host.Outcome State Fault Refusal :=
  .next (s.writeResult dr (s.readMem (s.pcRelative off)))

/-- LDI (R102): the flags follow the final word, not the pointer. -/
def execLdi (dr : Reg) (off : Word) (s : State) : Host.Outcome State Fault Refusal :=
  .next (s.writeResult dr (s.readMem (s.indirect off)))

/-- LDR (R103): the base is read before the destination is written. -/
def execLdr (dr base : Reg) (off : Word) (s : State) : Host.Outcome State Fault Refusal :=
  .next (s.writeResult dr (s.readMem (s.baseOffset base off)))

/-- LEA (R104): the address itself, and it updates the flags. -/
def execLea (dr : Reg) (off : Word) (s : State) : Host.Outcome State Fault Refusal :=
  .next (s.writeResult dr (s.pcRelative off))

/-- ST (R105). -/
def execSt (sr : Reg) (off : Word) (s : State) : Host.Outcome State Fault Refusal :=
  .next (s.writeMem (s.pcRelative off) (s.reg sr))

/-- STI (R106): one read of the pointer, then one write. -/
def execSti (sr : Reg) (off : Word) (s : State) : Host.Outcome State Fault Refusal :=
  .next (s.writeMem (s.indirect off) (s.reg sr))

/-- STR (R107). -/
def execStr (sr base : Reg) (off : Word) (s : State) : Host.Outcome State Fault Refusal :=
  .next (s.writeMem (s.baseOffset base off) (s.reg sr))

end Sys2Proof.Machine
end

