-- ==== Sys2Proof/Machine/Services.lean ====
section
/-! DEFINITION. The eight services of the trap vector table (spec 43_trap_and_reserved.md R121 to R132). -/

namespace Sys2Proof.Machine

/-- How one attempt of a service ends: it completes, it leaves the core blocked, or the spec gives
its input no meaning. -/
inductive ServiceResult where
  | done (s : State)
  | waiting (s : State)
  | refused (r : Refusal)
  deriving DecidableEq, Repr

/-- The vector base offset, 0x20 (R120; 00_scope.md R4). -/
def vectorBase : Int := 0x20

/-- The service index of a trap vector: a plain integer, -32 to 223, not modulo 65536 (R120). -/
def serviceIndex (vect : BitVec 8) : Int := (vect.toNat : Int) - vectorBase

/-- The eight entries of the vector table, by index (R121). -/
def vectorTable : List Service := [.getc, .out, .puts, .input, .reserved, .halt, .inu16, .outu16]

/-- The service a trap vector selects; none when the index is below 0 or above 7 (R120, R123). -/
def Service.ofVector (vect : BitVec 8) : Option Service :=
  if serviceIndex vect < 0 then none else vectorTable[(serviceIndex vect).toNat]?

/-- The low byte of a word, `w[7:0]` (R125, R126). -/
def lowByte (w : Word) : Byte := w.setWidth 8

/-- White space before a decimal number (R130; the codes are the spec's item G7, log 16). -/
def isSpace (b : Byte) : Bool :=
  b == 0x20 || b == 0x09 || b == 0x0A || b == 0x0B || b == 0x0C || b == 0x0D

/-- A decimal digit, 0x30 to 0x39 (R130). -/
def isDigit (b : Byte) : Bool := decide (0x30 ≤ b.toNat ∧ b.toNat ≤ 0x39)

/-- The value of a digit byte (R130). -/
def digitValue (b : Byte) : Nat := b.toNat - 0x30

/-- The value of a run of digits as an unbounded integer (R130). -/
def decimalValue (ds : List Byte) : Nat := ds.foldl (fun n b => n * 10 + digitValue b) 0

/-- The digit byte of a number below ten (R131). -/
def digitByte (d : Nat) : Byte := BitVec.ofNat 8 (0x30 + d)

/-- The decimal digits of a number below 10 ^ `fuel`, most significant first, no leading zeros,
"0" for zero (R131). -/
def decimalDigits : Nat → Nat → List Byte
  | 0, _ => []
  | fuel + 1, n =>
    if n < 10 then [digitByte n] else decimalDigits fuel (n / 10) ++ [digitByte (n % 10)]

/-- What OUTU16 emits for a value: its 1 to 5 digits and the newline 0x0A (R131). -/
def decimalLine (v : Word) : List Byte := decimalDigits 5 v.toNat ++ [0x0A]

/-- Walks a string from address `a`, at most `fuel` words: the low bytes of the words before the
first zero word, and whether one was met (R126). -/
def stringFrom (m : Memory) : Nat → Word → List Byte × Bool
  | 0, _ => ([], false)
  | fuel + 1, a =>
    if m.read a = 0x0000 then ([], true)
    else
      let rest := stringFrom m fuel (a + 1)
      (lowByte (m.read a) :: rest.1, rest.2)

/-- The number of cells of the Word Store: a walk of this many words has met every cell. -/
def storeSize : Nat := 65536

/-- Service 0, GETC (R124): no echo, bits 15 to 8 become 0; blocks while no byte is available. -/
def serviceGetc (s : State) : ServiceResult :=
  match s.inp with
  | [] => .waiting s
  | c :: rest => .done ((s.setInp rest).setReg ioReg (c.setWidth 16))

/-- Service 1, OUT (R125). -/
def serviceOut (s : State) : ServiceResult := .done (s.emit [lowByte (s.reg ioReg)])

/-- Service 2, PUTS (R126). With no zero word in the whole Word Store the service never completes:
one attempt emits one lap of all 65536 cells and stays outstanding, and since memory does not
change, the next attempt is the next lap (93 U8; log 9). -/
def servicePuts (s : State) : ServiceResult :=
  let walk := stringFrom s.mem storeSize (s.reg ioReg)
  if walk.2 then .done (s.emit walk.1) else .waiting (s.emit walk.1)

/-- Service 3, IN (R127): as GETC, and the byte read is echoed; no prompt. -/
def serviceInput (s : State) : ServiceResult :=
  match s.inp with
  | [] => .waiting s
  | c :: rest => .done (((s.setInp rest).setReg ioReg (c.setWidth 16)).emit [c])

/-- Service 4, reserved (R128): a no-op. -/
def serviceReserved (s : State) : ServiceResult := .done s

/-- Service 5, HALT (R129). -/
def serviceHalt (s : State) : ServiceResult := .done s.halt

/-- Service 6, INU16 (R130): skips white space (consumed even if it then blocks), reads the maximal
run of digits and leaves the byte after it. The two inputs the spec leaves without meaning are
refused (93 U5; log 10). -/
def serviceInu16 (s : State) : ServiceResult :=
  let rest := s.inp.dropWhile isSpace
  match rest with
  | [] => .waiting (s.setInp [])
  | b :: _ =>
    if isDigit b then
      let n := decimalValue (rest.takeWhile isDigit)
      if n ≤ 65535 then
        .done ((s.setInp (rest.dropWhile isDigit)).setReg ioReg (BitVec.ofNat 16 n))
      else .refused .decimalInputTooLarge
    else .refused .decimalInputMalformed

/-- Service 7, OUTU16 (R131). -/
def serviceOutu16 (s : State) : ServiceResult := .done (s.emit (decimalLine (s.reg ioReg)))

/-- One attempt of a service (R121). -/
def attempt : Service → State → ServiceResult
  | .getc, s => serviceGetc s
  | .out, s => serviceOut s
  | .puts, s => servicePuts s
  | .input, s => serviceInput s
  | .reserved, s => serviceReserved s
  | .halt, s => serviceHalt s
  | .inu16, s => serviceInu16 s
  | .outu16, s => serviceOutu16 s

/-- Performs a service inside its step: on completion no request is outstanding; when it blocks, the
core stays Running with the request outstanding (R122, R132; log 7). -/
def perform (svc : Service) (s : State) : Host.Outcome State Fault Refusal :=
  match attempt svc s with
  | .done t => .next (t.setOutstanding none)
  | .waiting t => .next (t.setOutstanding (some svc))
  | .refused r => .refused r

end Sys2Proof.Machine
end

