-- ==== Sys2Proof/Machine/System.lean ====
section
/-! DEFINITION. TRAP and the two unimplemented opcodes (spec 43_trap_and_reserved.md R120 to R123, R135, R136). -/

namespace Sys2Proof.Machine

/-- TRAP (R120): performs the service of the vector table, or raises `InvalidTrap` with the whole
instruction word (R123). It writes no `x[7]`, no `pc`, no `COND` and reads no handler (R122). -/
def execTrap (ign : BitVec 4) (vect : BitVec 8) (s : State) : Host.Outcome State Fault Refusal :=
  match Service.ofVector vect with
  | none => .next (s.raise .invalidTrap (encode (.trap ign vect)))
  | some svc => perform svc s

/-- An unimplemented opcode: a no-op, or in strict mode the failure `UnimplementedOpcode` with the
whole instruction word (R135, R136, R152). -/
def State.unimplemented (s : State) (word : Word) : State :=
  if s.strict then s.raise .unimplementedOpcode word else s

/-- RTI, opcode 1000 (R135). -/
def execRti (ign : BitVec 12) (s : State) : Host.Outcome State Fault Refusal :=
  .next (s.unimplemented (encode (.rti ign)))

/-- RES, opcode 1101 (R136). -/
def execRes (ign : BitVec 12) (s : State) : Host.Outcome State Fault Refusal :=
  .next (s.unimplemented (encode (.res ign)))

end Sys2Proof.Machine
end

