-- ==== Sys2Proof/Machine/Cycle.lean ====
section
/-! DEFINITION. The instruction cycle (spec 30_encoding.md R60, 43_trap_and_reserved.md R132, 70_reset_and_hazards.md R178). -/

namespace Sys2Proof.Machine

/-- Fetch, increment, decode, execute (R60). -/
def fetchExecute (s : State) : Host.Outcome State Fault Refusal :=
  exec (decode s.fetchWord) s.advance

/-- One turn of the execution loop. While and only while `RUN` is Running the core acts (R60): it
takes up the outstanding service request if there is one (R132), else it fetches and executes. A
core that has ended stays as it is (R178; log 8). -/
def cycle (s : State) : Host.Outcome State Fault Refusal :=
  match s.run with
  | .halted => .next s
  | .faulted => .next s
  | .running =>
    match s.outstanding with
    | some svc => perform svc s
    | none => fetchExecute s

/-- Stores a word in the cell the next fetch reads, on a core that is ready to fetch. -/
def placeNextWord (s : State) (w : Word) : State :=
  { s.writeMem s.pc w with run := .running, outstanding := none }

end Sys2Proof.Machine
end

