-- ==== Sys2Proof/Machine/Step.lean ====
section
/-! DEFINITION. The step of the machine, and storing an instruction where it fetches (spec 30_encoding.md R60). -/

namespace Sys2Proof.Machine

/-- One step (R60); see `cycle`. -/
def step (s : State) : Host.Outcome State Fault Refusal := cycle s

/-- `s` with the instruction of a table row stored where `step` fetches next: one cell, since every
instruction is one word (R50). `RUN` and the outstanding request are set to what a fetch needs
(log 14). -/
def State.withFetchWord (s : State) (nbits w : Nat) : State :=
  placeNextWord s (BitVec.ofNat 16 (w % 2 ^ nbits))

end Sys2Proof.Machine
end

