-- ==== Sys2Proof/Machine/Boot.lean ====
section
/-! DEFINITION. What the host does to the core: reset, the loader, input delivery (spec 70_reset_and_hazards.md R170 to R175, R182). -/

namespace Sys2Proof.Machine

/-- The words of an object file: two bytes a word, a trailing odd byte dropped (R172, R173). -/
def wordsOfBytes (order : ByteOrder) : List Byte → List Word
  | b0 :: b1 :: rest =>
    (match order with
      | .little => b1 ++ b0
      | .big => b0 ++ b1) :: wordsOfBytes order rest
  | _ => []

/-- Writes words from a numeric address upward; a word beyond 0xFFFF is dropped and never placed at
0x0000 (R173, R174). -/
def Memory.loadWords (m : Memory) (a : Nat) : List Word → Memory
  | [] => m
  | w :: ws => if a ≤ 0xFFFF then Memory.loadWords (m.put a w) (a + 1) ws else m

/-- The loader (R173): the words of the source at `START` upward. -/
def Memory.loadBytes (m : Memory) (p : Launch) (source : List Byte) : Memory :=
  m.loadWords p.start.toNat (wordsOfBytes p.byteOrder source)

/-- Reset with the given parameters and an image already in words (R170). It is the only way out of
Halted, Faulted or a blocked service, and depends on no earlier state. -/
def State.launch (p : Launch) (image : List Word) : State where
  regs := #v[0, 0, 0, 0, 0, 0, 0, 0]
  pc := p.start
  cond := 0x0002
  run := .running
  err := .noError
  errinfo := 0x0000
  mem := Memory.loadWords [] p.start.toNat image
  inp := p.input
  out := []
  outstanding := none
  strict := p.strict

/-- The boot contract (R171, R175): load the object file and release the core. `none` as source is
a file that cannot be opened or read: `LoadFailure`, no run exists. -/
def boot (p : Launch) (source : Option (List Byte)) : Option State :=
  source.map fun bytes => State.launch p (wordsOfBytes p.byteOrder bytes)

/-- The input device delivers more bytes while the core runs or is blocked (R182; log 13). -/
def State.supplyInput (s : State) (bs : List Byte) : State := s.setInp (s.inp ++ bs)

end Sys2Proof.Machine
end

