-- ==== Sys2Proof/Safety.lean ====
section
/-! DEFINITION. The terms claims use: the invariant of the machine, and what "unchanged" means (spec 10_state.md R17, R18; 30_encoding.md R61). -/

namespace Sys2Proof.Machine

/-- `COND` holds exactly one of the three flag values (10_state.md R17). -/
abbrev CondLegal (s : State) : Prop := s.cond = condN ∨ s.cond = condZ ∨ s.cond = condP

/-- `ERR` and `ERRINFO` say why the run Faulted, and are at their reset values in a run that has not
(10_state.md R18, 60_exceptions.md R150, R153). -/
abbrev StatusLegal (s : State) : Prop :=
  (s.run = .faulted ↔ s.err ≠ .noError) ∧
  (s.err = .noError → s.errinfo = 0) ∧
  (s.err = .invalidTrap →
    opcodeField s.errinfo = 0b1111#4 ∧ Service.ofVector (trapvect8Field s.errinfo) = none) ∧
  (s.err = .unimplementedOpcode →
    s.strict = true ∧ (opcodeField s.errinfo = 0b1000#4 ∨ opcodeField s.errinfo = 0b1101#4))

/-- A request is outstanding only in a Running core, and only of a service that can fail to
complete: the three of R132, and PUTS (R126). -/
abbrev OutstandingLegal (s : State) : Prop :=
  s.outstanding = none ∨
  (s.run = .running ∧ s.outstanding ∈
    [some Service.getc, some Service.input, some Service.inu16, some Service.puts])

/-- What every step keeps. -/
abbrev Inv (s : State) : Prop :=
  CondLegal s ∧ s.mem.wf ∧ StatusLegal s ∧ OutstandingLegal s

/-- Every general register outside `ds` is the same. -/
def SameRegsExcept (ds : List Reg) (s t : State) : Prop := ∀ r, r ∉ ds → t.reg r = s.reg r

/-- Every cell of the Word Store reads the same. -/
def SameMem (s t : State) : Prop := ∀ a, t.readMem a = s.readMem a

/-- Every cell of the Word Store but the one at `e` reads the same. -/
def SameMemExcept (e : Word) (s t : State) : Prop := ∀ a, a ≠ e → t.readMem a = s.readMem a

/-- The two streams are the same. -/
def SameStreams (s t : State) : Prop := t.inp = s.inp ∧ t.out = s.out

/-- `RUN`, `ERR`, `ERRINFO`, the outstanding request and the strap are the same. -/
def SameStatus (s t : State) : Prop :=
  t.run = s.run ∧ t.err = s.err ∧ t.errinfo = s.errinfo ∧ t.outstanding = s.outstanding ∧
    t.strict = s.strict

/-- `t` is `s` but for one result written to `dr`, its flag, and nothing else: what R61 and R16 say
of ADD, AND, NOT and the loads. -/
def ResultOnly (dr : Reg) (v : Word) (s t : State) : Prop :=
  t.reg dr = v ∧
  t.cond = (if v = 0x0000 then 0x0002 else if v[15] then 0x0004 else 0x0001) ∧
  SameRegsExcept [dr] s t ∧ t.pc = s.pc ∧ SameMem s t ∧ SameStreams s t ∧ SameStatus s t

/-- `t` is `s` but for one word stored at `e`: what R61 says of the stores. -/
def StoreOnly (e v : Word) (s t : State) : Prop :=
  t.readMem e = v ∧ SameMemExcept e s t ∧
  SameRegsExcept [] s t ∧ t.cond = s.cond ∧ t.pc = s.pc ∧ SameStreams s t ∧ SameStatus s t

/-- `t` is `s` but for the program counter: what R61 says of BR and JMP. -/
def PcOnly (target : Word) (s t : State) : Prop :=
  t.pc = target ∧ SameRegsExcept [] s t ∧ t.cond = s.cond ∧ SameMem s t ∧ SameStreams s t ∧
    SameStatus s t

/-- `t` is `s` but for the link register and the program counter: what R61 says of JSR and JSRR. -/
def CallOnly (ret target : Word) (s t : State) : Prop :=
  t.reg 7 = ret ∧ t.pc = target ∧ SameRegsExcept [7] s t ∧ t.cond = s.cond ∧ SameMem s t ∧
    SameStreams s t ∧ SameStatus s t

/-- `t` is `s` after `raise`: the three writes of 60_exceptions.md R153 and nothing else. -/
def FailureOnly (cause : Cause) (info : Word) (s t : State) : Prop :=
  t.run = .faulted ∧ t.err = cause ∧ t.errinfo = info ∧
  SameRegsExcept [] s t ∧ t.pc = s.pc ∧ t.cond = s.cond ∧ SameMem s t ∧ SameStreams s t ∧
    t.outstanding = s.outstanding ∧ t.strict = s.strict

/-- What no service touches: every general register but those in `ds`, `pc`, `COND`, the Word Store,
`ERR`, `ERRINFO` and the strap (43_trap_and_reserved.md R122). -/
def ServiceKeeps (ds : List Reg) (s t : State) : Prop :=
  SameRegsExcept ds s t ∧ t.pc = s.pc ∧ t.cond = s.cond ∧ SameMem s t ∧
    t.err = s.err ∧ t.errinfo = s.errinfo ∧ t.strict = s.strict

end Sys2Proof.Machine
end

