-- ==== Sys2Proof/Certificates/Slice0/Obligations.lean ====
section
/-! DEFINITION. The statements for the provers. Each docstring names the rule of spec/ it formalises,
and the log entries (notes/assumptions) of any choice it rests on. -/

open Sys2Proof Sys2Proof.Machine

/-! ### Encoding and decoding -/

/-- Decoding the encoding of any well-formed instruction gives it back, at every operand value
(30_encoding.md, formats and fields). The opcode numbers and field positions are the spec's items
G1 and G2 (log 4). -/
def Obligations.EncodeThenDecodeGivesInstruction : Prop :=
  ∀ i : Instr, i.wf = true → decode (encode i) = i

/-- Every word decodes to a well-formed instruction: each immediate is in the range 30_encoding.md
gives its field (log 12: immediates are carried sign-extended). -/
def Obligations.DecodedInstructionIsWellFormed : Prop :=
  ∀ w : Word, (decode w).wf = true

/-- R57: every word is of exactly one row of the opcode table, the row of the instruction it
decodes to. -/
def Obligations.EveryWordIsOfExactlyItsTableRow : Prop :=
  ∀ w : Word, opcodeRows.filter (fun r => w &&& r.2 == r.1) = [(decode w).row]

/-- Ignored bits make no difference (30_encoding.md section 2, decision D12): they are dropped where
the instruction cannot fail, and where it can (TRAP, RTI, RES) they make none when it does not fail.
A failure records the whole word (log 11). -/
def Obligations.IgnoredBitsMakeNoDifference : Prop :=
  (∀ (dr sr1 sr2 : Reg) (g h : BitVec 2),
    decode (0b0001#4 ++ regBits dr ++ regBits sr1 ++ 0#1 ++ g ++ regBits sr2) =
      decode (0b0001#4 ++ regBits dr ++ regBits sr1 ++ 0#1 ++ h ++ regBits sr2) ∧
    decode (0b0101#4 ++ regBits dr ++ regBits sr1 ++ 0#1 ++ g ++ regBits sr2) =
      decode (0b0101#4 ++ regBits dr ++ regBits sr1 ++ 0#1 ++ h ++ regBits sr2)) ∧
  (∀ (dr sr1 : Reg) (g h : BitVec 6),
    decode (0b1001#4 ++ regBits dr ++ regBits sr1 ++ g) =
      decode (0b1001#4 ++ regBits dr ++ regBits sr1 ++ h)) ∧
  (∀ (base : Reg) (g₁ h₁ : BitVec 3) (g₂ h₂ : BitVec 6),
    decode (0b1100#4 ++ g₁ ++ regBits base ++ g₂) =
      decode (0b1100#4 ++ h₁ ++ regBits base ++ h₂)) ∧
  (∀ (base : Reg) (g₁ h₁ : BitVec 2) (g₂ h₂ : BitVec 6),
    decode (0b0100#4 ++ 0#1 ++ g₁ ++ regBits base ++ g₂) =
      decode (0b0100#4 ++ 0#1 ++ h₁ ++ regBits base ++ h₂)) ∧
  (∀ (g h : BitVec 4) (vect : BitVec 8) (s : State), 0x20 ≤ vect.toNat → vect.toNat ≤ 0x27 →
    exec (.trap g vect) s = exec (.trap h vect) s) ∧
  (∀ (g h : BitVec 12) (s : State), s.strict = false →
    exec (.rti g) s = exec (.rti h) s ∧ exec (.res g) s = exec (.res h) s)

/-- Words of 95_test_vectors.md L2-12 and of the examples of files 40 to 43 decode to the
instructions the spec writes beside them. -/
def Obligations.SampleWordsDecode : Prop :=
  decode 0x0000 = .br 0b000 0 ∧ decode 0x0403 = .br 0b010 3 ∧ decode 0x0FFF = .br 0b111 0xFFFF ∧
  decode 0x1240 = .addReg 1 1 0 ∧ decode 0x1258 = .addReg 1 1 0 ∧ decode 0x1260 = .addImm 1 1 0 ∧
  decode 0x127F = .addImm 1 1 0xFFFF ∧ decode 0x54C4 = .andReg 2 3 4 ∧
  decode 0x5020 = .andImm 0 0 0 ∧ decode 0x92BF = .not 1 2 ∧ decode 0x9000 = .not 0 0 ∧
  decode 0x4800 = .jsr 0 ∧ decode 0x47FF = .jsrr 7 ∧ decode 0xC000 = .jmp 0 ∧
  decode 0xCFFF = .jmp 7 ∧ decode 0x2202 = .ld 1 2 ∧ decode 0xA202 = .ldi 1 2 ∧
  decode 0x62BF = .ldr 1 2 0xFFFF ∧ decode 0xE005 = .lea 0 5 ∧ decode 0x3202 = .st 1 2 ∧
  decode 0xB202 = .sti 1 2 ∧ decode 0x7283 = .str 1 2 3 ∧ decode 0xF125 = .trap 1 0x25 ∧
  decode 0x8123 = .rti 0x123 ∧ decode 0xD123 = .res 0x123

/-- R9: sign extension at the four widths the instruction set uses. -/
def Obligations.SignExtensionKeepsSignedValue : Prop :=
  ∀ (n : Nat) (v : BitVec n), n ∈ [5, 6, 9, 11] →
    (sext v).toNat =
      (if v.toNat < 2 ^ (n - 1) then v.toNat else v.toNat + 65536 - 2 ^ n) ∧
    (sext v).toInt =
      (if v.toNat < 2 ^ (n - 1) then (v.toNat : Int) else (v.toNat : Int) - 2 ^ n)

/-! ### The flags -/

/-- `setcc` (10_state.md section 4): zero, else negative, else positive, overwriting `COND` and
nothing else. The three numbers are the spec's item G3 (log 5). -/
def Obligations.SetccOverwritesCondOnly : Prop :=
  ∀ (s : State) (v : Word),
    (s.setcc v).cond = (if v = 0 then 0x0002 else if v[15] then 0x0004 else 0x0001) ∧
    SameRegsExcept [] s (s.setcc v) ∧ (s.setcc v).pc = s.pc ∧ SameMem s (s.setcc v) ∧
    SameStreams s (s.setcc v) ∧ SameStatus s (s.setcc v)

/-! ### Arithmetic and logic -/

/-- R80, ADD register mode: encoding, result modulo 65536, flags and frame; it completes in every
state. `ResultOnly` says the flags (log 5) and that nothing else changes. -/
def Obligations.AddRegisterResultAndFrame : Prop :=
  ∀ (dr sr1 sr2 : Reg) (ign : BitVec 2) (s : State),
    decode (0b0001#4 ++ regBits dr ++ regBits sr1 ++ 0#1 ++ ign ++ regBits sr2) =
      .addReg dr sr1 sr2 ∧
    ∃ t, exec (.addReg dr sr1 sr2) s = .next t ∧
      ResultOnly dr (BitVec.ofNat 16 (((s.reg sr1).toNat + (s.reg sr2).toNat) % 65536)) s t

/-- R81, ADD immediate mode. -/
def Obligations.AddImmediateResultAndFrame : Prop :=
  ∀ (dr sr1 : Reg) (imm5 : BitVec 5) (s : State),
    decode (0b0001#4 ++ regBits dr ++ regBits sr1 ++ 1#1 ++ imm5) = .addImm dr sr1 (sext imm5) ∧
    ∃ t, exec (.addImm dr sr1 (sext imm5)) s = .next t ∧
      ResultOnly dr (BitVec.ofNat 16 (((s.reg sr1).toNat + (sext imm5).toNat) % 65536)) s t

/-- R82, AND register mode. -/
def Obligations.AndRegisterResultAndFrame : Prop :=
  ∀ (dr sr1 sr2 : Reg) (ign : BitVec 2) (s : State),
    decode (0b0101#4 ++ regBits dr ++ regBits sr1 ++ 0#1 ++ ign ++ regBits sr2) =
      .andReg dr sr1 sr2 ∧
    ∃ t, exec (.andReg dr sr1 sr2) s = .next t ∧
      ResultOnly dr (s.reg sr1 &&& s.reg sr2) s t

/-- R83, AND immediate mode; bits 15 to 5 of the mask all equal `imm5[4]`. -/
def Obligations.AndImmediateResultAndFrame : Prop :=
  ∀ (dr sr1 : Reg) (imm5 : BitVec 5) (s : State),
    decode (0b0101#4 ++ regBits dr ++ regBits sr1 ++ 1#1 ++ imm5) = .andImm dr sr1 (sext imm5) ∧
    (∀ k, 5 ≤ k → k < 16 → (sext imm5).getLsbD k = imm5[4]) ∧
    ∃ t, exec (.andImm dr sr1 (sext imm5)) s = .next t ∧
      ResultOnly dr (s.reg sr1 &&& sext imm5) s t

/-- R84, NOT: the complement, which equals 0xFFFF - x[SR1]. -/
def Obligations.NotResultAndFrame : Prop :=
  ∀ (dr sr1 : Reg) (ign : BitVec 6) (s : State),
    decode (0b1001#4 ++ regBits dr ++ regBits sr1 ++ ign) = .not dr sr1 ∧
    ~~~ (s.reg sr1) = 0xFFFF - s.reg sr1 ∧
    ∃ t, exec (.not dr sr1) s = .next t ∧ ResultOnly dr (~~~ (s.reg sr1)) s t

/-- R86: the two modes agree when the second register holds the immediate's value. -/
def Obligations.RegisterAndImmediateModesAgree : Prop :=
  ∀ (dr sr1 sr2 : Reg) (imm5 : BitVec 5) (s : State), s.reg sr2 = sext imm5 →
    exec (.addReg dr sr1 sr2) s = exec (.addImm dr sr1 (sext imm5)) s ∧
    exec (.andReg dr sr1 sr2) s = exec (.andImm dr sr1 (sext imm5)) s

/-- 40_alu.md section 1: the one 16-bit result of ADD is right for the unsigned and for the
two's-complement reading of the operands. -/
def Obligations.AddIsRightSignedAndUnsigned : Prop :=
  ∀ (dr sr1 sr2 : Reg) (s : State), ∃ t, exec (.addReg dr sr1 sr2) s = .next t ∧
    (t.reg dr).toNat = ((s.reg sr1).toNat + (s.reg sr2).toNat) % 65536 ∧
    (t.reg dr).toInt = ((s.reg sr1).toInt + (s.reg sr2).toInt).bmod 65536

/-! ### Control flow -/

/-- R90, BR: encoding, test, target and frame, and the test in terms of the three flags. -/
def Obligations.BranchTakenExactlyOnMask : Prop :=
  ∀ (nzp : BitVec 3) (off9 : BitVec 9) (s : State),
    decode (0b0000#4 ++ nzp ++ off9) = .br nzp (sext off9) ∧
    (CondLegal s → ((s.cond &&& nzp.setWidth 16 ≠ 0) ↔
      (nzp[2] = true ∧ s.cond = 0x0004) ∨ (nzp[1] = true ∧ s.cond = 0x0002) ∨
        (nzp[0] = true ∧ s.cond = 0x0001))) ∧
    ∃ t, exec (.br nzp (sext off9)) s = .next t ∧
      PcOnly (if s.cond &&& nzp.setWidth 16 ≠ 0 then s.pc + sext off9 else s.pc) s t

/-- R91, the special masks and offsets, as whole steps from a Running core that is not blocked:
mask 000 never branches, mask 111 always does (with a legal `COND`), offset 0 falls through taken or
not, offset -1 with a true condition branches to the BR itself (0x0FFF with any legal `COND`), and at
0xFFFF an untaken BR or one of offset 0 goes on at 0x0000. -/
def Obligations.BranchSpecialMasks : Prop :=
  ∀ (off9 : BitVec 9) (s : State), s.run = .running → s.outstanding = none →
    (s.fetchWord = 0b0000#4 ++ 0b000#3 ++ off9 →
      ∃ t, step s = .next t ∧ PcOnly (s.pc + 1) s t) ∧
    (CondLegal s → s.fetchWord = 0b0000#4 ++ 0b111#3 ++ off9 →
      ∃ t, step s = .next t ∧ PcOnly (s.pc + 1 + sext off9) s t) ∧
    (∀ nzp : BitVec 3, s.fetchWord = 0b0000#4 ++ nzp ++ 0#9 →
      ∃ t, step s = .next t ∧ PcOnly (s.pc + 1) s t) ∧
    (∀ nzp : BitVec 3, s.fetchWord = 0b0000#4 ++ nzp ++ 0x1FF#9 →
      s.cond &&& nzp.setWidth 16 ≠ 0 → ∃ t, step s = .next t ∧ PcOnly s.pc s t) ∧
    (CondLegal s → s.fetchWord = 0x0FFF → ∃ t, step s = .next t ∧ PcOnly s.pc s t) ∧
    (s.pc = 0xFFFF → ∀ nzp : BitVec 3, s.fetchWord = 0b0000#4 ++ nzp ++ off9 →
      (off9 = 0 ∨ s.cond &&& nzp.setWidth 16 = 0) →
      ∃ t, step s = .next t ∧ PcOnly 0x0000 s t)

/-- R92, JMP. -/
def Obligations.JumpGoesToBaseRegister : Prop :=
  ∀ (base : Reg) (ign₁ : BitVec 3) (ign₂ : BitVec 6) (s : State),
    decode (0b1100#4 ++ ign₁ ++ regBits base ++ ign₂) = .jmp base ∧
    ∃ t, exec (.jmp base) s = .next t ∧ PcOnly (s.reg base) s t

/-- R93, JSR: the link register gets the incremented `pc`, and no flag changes. -/
def Obligations.JsrLinksAndBranches : Prop :=
  ∀ (off11 : BitVec 11) (s : State),
    decode (0b0100#4 ++ 1#1 ++ off11) = .jsr (sext off11) ∧
    ∃ t, exec (.jsr (sext off11)) s = .next t ∧ CallOnly s.pc (s.pc + sext off11) s t

/-- 41_control.md section 4, JSRR: the link register is written before the base is read (the spec's
decision D14, log 16), so JSRR R7 falls through. -/
def Obligations.JsrrLinksThenReadsBase : Prop :=
  ∀ (base : Reg) (ign₁ : BitVec 2) (ign₂ : BitVec 6) (s : State),
    decode (0b0100#4 ++ 0#1 ++ ign₁ ++ regBits base ++ ign₂) = .jsrr base ∧
    ∃ t, exec (.jsrr base) s = .next t ∧
      CallOnly s.pc (if base = 7 then s.pc else s.reg base) s t

/-! ### Loads, stores, address -/

/-- R101, LD. -/
def Obligations.LdLoadsPcRelative : Prop :=
  ∀ (dr : Reg) (off9 : BitVec 9) (s : State),
    decode (0b0010#4 ++ regBits dr ++ off9) = .ld dr (sext off9) ∧
    ∃ t, exec (.ld dr (sext off9)) s = .next t ∧
      ResultOnly dr (s.readMem (s.pc + sext off9)) s t

/-- R102, LDI: two reads, flags of the final word. -/
def Obligations.LdiLoadsThroughPointer : Prop :=
  ∀ (dr : Reg) (off9 : BitVec 9) (s : State),
    decode (0b1010#4 ++ regBits dr ++ off9) = .ldi dr (sext off9) ∧
    ∃ t, exec (.ldi dr (sext off9)) s = .next t ∧
      ResultOnly dr (s.readMem (s.readMem (s.pc + sext off9))) s t

/-- R103, LDR: the old base forms the address, also when DR = BaseR. -/
def Obligations.LdrLoadsBaseOffset : Prop :=
  ∀ (dr base : Reg) (off6 : BitVec 6) (s : State),
    decode (0b0110#4 ++ regBits dr ++ regBits base ++ off6) = .ldr dr base (sext off6) ∧
    ∃ t, exec (.ldr dr base (sext off6)) s = .next t ∧
      ResultOnly dr (s.readMem (s.reg base + sext off6)) s t

/-- R104, LEA: the address, with flags. -/
def Obligations.LeaGivesAddressAndFlags : Prop :=
  ∀ (dr : Reg) (off9 : BitVec 9) (s : State),
    decode (0b1110#4 ++ regBits dr ++ off9) = .lea dr (sext off9) ∧
    ∃ t, exec (.lea dr (sext off9)) s = .next t ∧ ResultOnly dr (s.pc + sext off9) s t

/-- R105, ST: the word goes to the PC-relative cell, and every other cell reads as before. -/
def Obligations.StStoresPcRelative : Prop :=
  ∀ (sr : Reg) (off9 : BitVec 9) (s : State),
    decode (0b0011#4 ++ regBits sr ++ off9) = .st sr (sext off9) ∧
    s.pcRelative (sext off9) = s.pc + sext off9 ∧
    ∃ t, exec (.st sr (sext off9)) s = .next t ∧
      StoreOnly (s.pcRelative (sext off9)) (s.reg sr) s t

/-- R106, STI: the word goes to the cell the pointer names, the pointer read first. -/
def Obligations.StiStoresThroughPointer : Prop :=
  ∀ (sr : Reg) (off9 : BitVec 9) (s : State),
    decode (0b1011#4 ++ regBits sr ++ off9) = .sti sr (sext off9) ∧
    s.indirect (sext off9) = s.readMem (s.pc + sext off9) ∧
    ∃ t, exec (.sti sr (sext off9)) s = .next t ∧
      StoreOnly (s.indirect (sext off9)) (s.reg sr) s t

/-- R107, STR: the word goes to the base + offset cell, also when SR = BaseR. -/
def Obligations.StrStoresBaseOffset : Prop :=
  ∀ (sr base : Reg) (off6 : BitVec 6) (s : State),
    decode (0b0111#4 ++ regBits sr ++ regBits base ++ off6) = .str sr base (sext off6) ∧
    s.baseOffset base (sext off6) = s.reg base + sext off6 ∧
    ∃ t, exec (.str sr base (sext off6)) s = .next t ∧
      StoreOnly (s.baseOffset base (sext off6)) (s.reg sr) s t

/-! ### TRAP and its services -/

/-- 43_trap_and_reserved.md section 1: a vector outside 0x20 to 0x27 performs no service and raises
`InvalidTrap` with the whole word, in both settings of the strap; nothing else changes (the spec's
decisions D3, D5, D6, log 16). -/
def Obligations.InvalidVectorFails : Prop :=
  ∀ (ign : BitVec 4) (vect : BitVec 8) (s : State), vect.toNat < 0x20 ∨ 0x27 < vect.toNat →
    decode (0b1111#4 ++ ign ++ vect) = .trap ign vect ∧
    ∃ t, exec (.trap ign vect) s = .next t ∧
      FailureOnly .invalidTrap (0b1111#4 ++ ign ++ vect) s t

/-- 60_exceptions.md section 1: TRAP fails exactly outside the table; a vector inside it never
leaves the run Faulted (decision D5, log 16). -/
def Obligations.TrapFailsExactlyOutsideTable : Prop :=
  ∀ (ign : BitVec 4) (vect : BitVec 8) (s t : State), s.run = .running →
    exec (.trap ign vect) s = .next t →
    (t.run = .faulted ↔ (vect.toNat < 0x20 ∨ 0x27 < vect.toNat))

/-- 43 section 2, service 0, GETC, with a byte available: the byte zero-extended (decision D16, log
16), no echo, no flag. -/
def Obligations.GetcReadsOneByte : Prop :=
  ∀ (ign : BitVec 4) (s : State) (c : Byte) (rest : List Byte), s.inp = c :: rest →
    ∃ t, exec (.trap ign 0x20#8) s = .next t ∧
      t.reg 0 = BitVec.ofNat 16 c.toNat ∧ t.inp = rest ∧ t.out = s.out ∧ t.run = s.run ∧
      t.outstanding = none ∧ ServiceKeeps [0] s t

/-- R125, service 1, OUT: the low byte of `x[0]` is emitted and no register changes. -/
def Obligations.OutEmitsLowByte : Prop :=
  ∀ (ign : BitVec 4) (s : State),
    ∃ t, exec (.trap ign 0x21#8) s = .next t ∧
      t.out = s.out ++ [(s.reg 0).extractLsb' 0 8] ∧ t.inp = s.inp ∧ t.run = s.run ∧
      t.outstanding = none ∧ ServiceKeeps [] s t

/-- 43 section 2, service 2, PUTS: the low bytes of the words before the first zero word, wrapping
at 0xFFFF, and `x[0]` unchanged (decision D17, log 16). -/
def Obligations.PutsEmitsString : Prop :=
  ∀ (ign : BitVec 4) (s : State) (str : List Word), str.length < 65536 → (∀ w ∈ str, w ≠ 0) →
    (∀ (k : Nat) (h : k < str.length), s.readMem (s.reg 0 + BitVec.ofNat 16 k) = str[k]) →
    s.readMem (s.reg 0 + BitVec.ofNat 16 str.length) = 0 →
    ∃ t, exec (.trap ign 0x22#8) s = .next t ∧
      t.out = s.out ++ str.map (fun w => w.extractLsb' 0 8) ∧ t.inp = s.inp ∧ t.run = s.run ∧
      t.outstanding = none ∧ ServiceKeeps [] s t

/-- 43 section 2 and 93 U8: with no zero word in the Word Store PUTS never completes and emits for ever.
That the core does so one lap of the store a step, staying in the service, is the model's choice
(log 9). The first clause is the step that starts the service; the second is every later one, and as
`ServiceKeeps` keeps the Word Store, it holds again of the state it answers. -/
def Obligations.PutsWithoutTerminatorNeverCompletes : Prop :=
  ∀ s : State, (∀ a, s.readMem a ≠ 0) → s.run = .running →
    (∀ ign : BitVec 4, ∃ t, exec (.trap ign 0x22#8) s = .next t ∧
      t.run = .running ∧ t.outstanding = some .puts ∧
      t.out = s.out ++
        (List.range 65536).map (fun k => (s.readMem (s.reg 0 + BitVec.ofNat 16 k)).extractLsb' 0 8) ∧
      t.inp = s.inp ∧ ServiceKeeps [] s t) ∧
    (s.outstanding = some .puts → ∃ t, step s = .next t ∧
      t.run = .running ∧ t.outstanding = some .puts ∧
      t.out = s.out ++
        (List.range 65536).map (fun k => (s.readMem (s.reg 0 + BitVec.ofNat 16 k)).extractLsb' 0 8) ∧
      t.inp = s.inp ∧ ServiceKeeps [] s t)

/-- 43 section 2, service 3, IN, with a byte available: as GETC, and the byte is echoed (decisions
D16, D20, log 16). -/
def Obligations.InReadsAndEchoesOneByte : Prop :=
  ∀ (ign : BitVec 4) (s : State) (c : Byte) (rest : List Byte), s.inp = c :: rest →
    ∃ t, exec (.trap ign 0x23#8) s = .next t ∧
      t.reg 0 = BitVec.ofNat 16 c.toNat ∧ t.inp = rest ∧ t.out = s.out ++ [c] ∧ t.run = s.run ∧
      t.outstanding = none ∧ ServiceKeeps [0] s t

/-- R128, service 4: nothing changes, in either setting of the strap. -/
def Obligations.ReservedServiceChangesNothing : Prop :=
  ∀ (ign : BitVec 4) (s : State), s.outstanding = none → exec (.trap ign 0x24#8) s = .next s

/-- 43 section 2, service 5, HALT: `RUN` becomes Halted and nothing else changes. That a step of the
halted core answers the same state is the model's choice (log 8) for the spec's "no instruction
executes after it". -/
def Obligations.HaltStopsTheRun : Prop :=
  ∀ (ign : BitVec 4) (s : State),
    ∃ t, exec (.trap ign 0x25#8) s = .next t ∧ t.run = .halted ∧ t.inp = s.inp ∧ t.out = s.out ∧
      t.outstanding = none ∧ ServiceKeeps [] s t ∧ step t = .next t

/-- 43 section 2, service 6, INU16, on white space and then a run of digits whose value fits: the
value is written, the byte after the run is not consumed (decision D18, log 16). -/
def Obligations.Inu16ReadsDecimal : Prop :=
  ∀ (ign : BitVec 4) (s : State) (ws ds rest : List Byte),
    (∀ b ∈ ws, b ∈ ([0x20, 0x09, 0x0A, 0x0B, 0x0C, 0x0D] : List Byte)) →
    ds ≠ [] → (∀ b ∈ ds, 0x30 ≤ b.toNat ∧ b.toNat ≤ 0x39) →
    (∀ b ∈ rest.head?, ¬ (0x30 ≤ b.toNat ∧ b.toNat ≤ 0x39)) →
    s.inp = ws ++ ds ++ rest →
    ds.foldl (fun n b => n * 10 + (b.toNat - 0x30)) 0 ≤ 65535 →
    ∃ t, exec (.trap ign 0x26#8) s = .next t ∧
      (t.reg 0).toNat = ds.foldl (fun n b => n * 10 + (b.toNat - 0x30)) 0 ∧
      t.inp = rest ∧ t.out = s.out ∧ t.run = s.run ∧ t.outstanding = none ∧ ServiceKeeps [0] s t

/-- 93 U5: the two decimal inputs to which the spec gives no meaning are refused by name (decision
D18, log 10): a first byte after the white space that is no digit, and a value above 65535. -/
def Obligations.Inu16RefusesMeaninglessInput : Prop :=
  ∀ (ign : BitVec 4) (s : State) (ws : List Byte),
    (∀ b ∈ ws, b ∈ ([0x20, 0x09, 0x0A, 0x0B, 0x0C, 0x0D] : List Byte)) →
    (∀ (c : Byte) (rest : List Byte), s.inp = ws ++ c :: rest →
      c ∉ ([0x20, 0x09, 0x0A, 0x0B, 0x0C, 0x0D] : List Byte) →
      ¬ (0x30 ≤ c.toNat ∧ c.toNat ≤ 0x39) →
      exec (.trap ign 0x26#8) s = .refused .decimalInputMalformed) ∧
    (∀ (ds rest : List Byte), s.inp = ws ++ ds ++ rest →
      (∀ b ∈ ds, 0x30 ≤ b.toNat ∧ b.toNat ≤ 0x39) →
      (∀ b ∈ rest.head?, ¬ (0x30 ≤ b.toNat ∧ b.toNat ≤ 0x39)) →
      65535 < ds.foldl (fun n b => n * 10 + (b.toNat - 0x30)) 0 →
      exec (.trap ign 0x26#8) s = .refused .decimalInputTooLarge)

/-- 43 section 2, service 7, OUTU16: the 1 to 5 decimal digits of `x[0]`, no leading zero, and a
newline (decision D19, log 16). -/
def Obligations.Outu16EmitsDecimalLine : Prop :=
  ∀ (ign : BitVec 4) (s : State),
    ∃ (t : State) (ds : List Byte), exec (.trap ign 0x27#8) s = .next t ∧
      t.out = s.out ++ ds ++ [0x0A] ∧
      1 ≤ ds.length ∧ ds.length ≤ 5 ∧ (∀ b ∈ ds, 0x30 ≤ b.toNat ∧ b.toNat ≤ 0x39) ∧
      (ds.head? = some 0x30 → ds = [0x30]) ∧
      ds.foldl (fun n b => n * 10 + (b.toNat - 0x30)) 0 = (s.reg 0).toNat ∧
      t.inp = s.inp ∧ t.run = s.run ∧ t.outstanding = none ∧ ServiceKeeps [] s t

/-- What OUTU16 writes, INU16 reads back to the same value whatever `x[0]` holds in between, leaving the
newline (decisions D18, D19, log 16): the two decimal services agree on their format. -/
def Obligations.Inu16ReadsBackOutu16 : Prop :=
  ∀ (ign : BitVec 4) (s t : State) (rest : List Byte) (v : Word),
    exec (.trap ign 0x27#8) s = .next t → s.out = [] →
    ∃ u, exec (.trap ign 0x26#8) (State.setReg { t with inp := t.out ++ rest } 0 v) = .next u ∧
      u.reg 0 = s.reg 0 ∧ u.inp = 0x0A :: rest

/-- 43 section 2: with no byte to read an input service leaves the core Running and blocked in that
service, `pc` past the TRAP (decision D16; the field `outstanding` is the model's, log 7). INU16 has
consumed the white space. -/
def Obligations.InputServicesBlockWithoutInput : Prop :=
  ∀ (ign : BitVec 4) (s : State), s.run = .running →
    (s.inp = [] → ∃ t, exec (.trap ign 0x20#8) s = .next t ∧ t.run = .running ∧
      t.outstanding = some .getc ∧ SameStreams s t ∧ ServiceKeeps [] s t) ∧
    (s.inp = [] → ∃ t, exec (.trap ign 0x23#8) s = .next t ∧ t.run = .running ∧
      t.outstanding = some .input ∧ SameStreams s t ∧ ServiceKeeps [] s t) ∧
    ((∀ b ∈ s.inp, b ∈ ([0x20, 0x09, 0x0A, 0x0B, 0x0C, 0x0D] : List Byte)) →
      ∃ t, exec (.trap ign 0x26#8) s = .next t ∧ t.run = .running ∧
        t.outstanding = some .inu16 ∧ t.inp = [] ∧ t.out = s.out ∧ ServiceKeeps [] s t)

/-- R132, R165 in the model's terms (log 7): a blocked core takes no other step while no byte is
there, and a byte that becomes available wakes it: GETC and IN complete, and INU16 reads on in what
has come, without another fetch. -/
def Obligations.BlockedCoreWaitsAndWakes : Prop :=
  ∀ (s : State), s.run = .running →
    (s.outstanding = some .getc →
      (s.inp = [] → step s = .next s) ∧
      (∀ c bs, s.inp = [] → ∃ t, step (s.supplyInput (c :: bs)) = .next t ∧
        t.reg 0 = BitVec.ofNat 16 c.toNat ∧ t.inp = bs ∧ t.out = s.out ∧
        t.outstanding = none ∧ t.run = .running ∧ ServiceKeeps [0] s t)) ∧
    (s.outstanding = some .input →
      (s.inp = [] → step s = .next s) ∧
      (∀ c bs, s.inp = [] → ∃ t, step (s.supplyInput (c :: bs)) = .next t ∧
        t.reg 0 = BitVec.ofNat 16 c.toNat ∧ t.inp = bs ∧ t.out = s.out ++ [c] ∧
        t.outstanding = none ∧ t.run = .running ∧ ServiceKeeps [0] s t)) ∧
    (s.outstanding = some .inu16 →
      (s.inp = [] → step s = .next s) ∧
      (∀ bs, step (s.supplyInput bs) = exec (.trap 0 0x26#8) (s.supplyInput bs)))

/-- 43 section 1, what TRAP does not do (decision D15, log 16): whatever the vector and however the
service ends, `x[1]` to `x[7]`, `pc`, `COND` and the Word Store are untouched. -/
def Obligations.TrapIsNoControlTransfer : Prop :=
  ∀ (ign : BitVec 4) (vect : BitVec 8) (s t : State), exec (.trap ign vect) s = .next t →
    SameRegsExcept [0] s t ∧ t.pc = s.pc ∧ t.cond = s.cond ∧ SameMem s t ∧ t.strict = s.strict

/-! ### The unimplemented opcodes -/

/-- R135, RTI: a no-op, or in strict mode `UnimplementedOpcode` with the whole word. -/
def Obligations.RtiIsNoOpOrFails : Prop :=
  ∀ (ign : BitVec 12) (s : State),
    decode (0b1000#4 ++ ign) = .rti ign ∧
    (s.strict = false → exec (.rti ign) s = .next s) ∧
    (s.strict = true → ∃ t, exec (.rti ign) s = .next t ∧
      FailureOnly .unimplementedOpcode (0b1000#4 ++ ign) s t)

/-- R136, RES: as RTI. -/
def Obligations.ResIsNoOpOrFails : Prop :=
  ∀ (ign : BitVec 12) (s : State),
    decode (0b1101#4 ++ ign) = .res ign ∧
    (s.strict = false → exec (.res ign) s = .next s) ∧
    (s.strict = true → ∃ t, exec (.res ign) s = .next t ∧
      FailureOnly .unimplementedOpcode (0b1101#4 ++ ign) s t)

/-! ### The step -/

/-- 30_encoding.md section 5: on a Running core that is not blocked, a step fetches the word at `pc`,
increments `pc` modulo 65536 and executes the decoded instruction on that state. -/
def Obligations.StepRunsTheDecodedInstruction : Prop :=
  ∀ (s : State) (i : Instr), s.run = .running → s.outstanding = none →
    decode (s.readMem s.pc) = i → step s = exec i { s with pc := s.pc + 1 }

/-- 70_reset_and_hazards.md section 3: nothing changes after the end (the model's step answers the
same state, log 8). -/
def Obligations.EndedRunStaysAsItIs : Prop :=
  ∀ s : State, s.run ≠ .running → step s = .next s

/-- 10_state.md section 3, the table of `pc` after the step, with `A` = `s.pc` (decisions D14, D24,
log 16). -/
def Obligations.ProgramCounterAfterStep : Prop :=
  ∀ (s t : State), s.run = .running → s.outstanding = none → step s = .next t →
    t.pc = (match decode s.fetchWord with
      | .br nzp off => if s.cond &&& nzp.setWidth 16 ≠ 0 then s.pc + 1 + off else s.pc + 1
      | .jmp base => s.reg base
      | .jsr off => s.pc + 1 + off
      | .jsrr base => if base = 7 then s.pc + 1 else s.reg base
      | _ => s.pc + 1)

/-- 20_memory.md section 4, self-modifying code: a ST into the next cell completes, and the next step
runs the word just stored; a ST onto its own cell completes unaffected. -/
def Obligations.StoreIsSeenByTheNextFetch : Prop :=
  ∀ (s : State) (sr : Reg), s.run = .running → s.outstanding = none →
    (s.fetchWord = 0b0011#4 ++ regBits sr ++ 0#9 →
      ∃ t, step s = .next t ∧ t.fetchWord = s.reg sr ∧
        step t = exec (decode (s.reg sr)) { t with pc := s.pc + 2 }) ∧
    (s.fetchWord = 0b0011#4 ++ regBits sr ++ 0x1FF#9 →
      ∃ t, step s = .next t ∧ t.readMem s.pc = s.reg sr ∧ t.pc = s.pc + 1)

/-! ### Invariants and whole-machine rules -/

/-- The state after reset meets the invariant. -/
def Obligations.ResetMeetsInvariant : Prop := Inv State.reset

/-- So does the state after every launch, whatever the parameters and the image. -/
def Obligations.LaunchMeetsInvariant : Prop :=
  ∀ (p : Launch) (image : List Word), Inv (State.launch p image)

/-- Every step keeps the invariant: `COND` holds exactly one flag (10_state.md section 4), the Word
Store keeps its canonical form, `RUN`, `ERR` and `ERRINFO` agree (60_exceptions.md), and only a
Running core has an outstanding request. -/
def Obligations.StepKeepsInvariant : Prop :=
  ∀ s t : State, Inv s → step s = .next t → Inv t

/-- 43 section 2 and 10_state.md section 5: only service HALT makes a run Halted. -/
def Obligations.OnlyHaltServiceHalts : Prop :=
  ∀ s t : State, Inv s → s.run = .running → step s = .next t → t.run = .halted →
    s.outstanding = none ∧ opcodeField s.fetchWord = 0b1111#4 ∧
      trapvect8Field s.fetchWord = 0x25#8

/-- 60_exceptions.md: a run becomes Faulted only through TRAP with a bad vector or, in strict mode,
opcodes 1000 and 1101; `ERRINFO` is the fetched word, and but for the `pc` increment the failure's
three writes are all that happens (decisions D3 to D5, log 16). -/
def Obligations.OnlyFailuresFaultAndArePrecise : Prop :=
  ∀ s t : State, Inv s → s.run = .running → step s = .next t → t.run = .faulted →
    s.outstanding = none ∧
    ((opcodeField s.fetchWord = 0b1111#4 ∧
        ((trapvect8Field s.fetchWord).toNat < 0x20 ∨ 0x27 < (trapvect8Field s.fetchWord).toNat) ∧
        FailureOnly .invalidTrap s.fetchWord { s with pc := s.pc + 1 } t) ∨
     ((opcodeField s.fetchWord = 0b1000#4 ∨ opcodeField s.fetchWord = 0b1101#4) ∧
        s.strict = true ∧
        FailureOnly .unimplementedOpcode s.fetchWord { s with pc := s.pc + 1 } t))

/-- 10_state.md section 7: `In` is consumed from the front only and `Out` appended at the back only,
and no step changes the strap. -/
def Obligations.StreamsOnlyAdvanceAndStrapIsFixed : Prop :=
  ∀ s t : State, step s = .next t →
    t.inp <:+ s.inp ∧ s.out <+: t.out ∧ t.strict = s.strict

/-- 30_encoding.md section 5, what the handlers may change: a step that changes a cell of the Word
Store runs ST, STI or STR; the cell at the address that instruction forms, with `pc` already
incremented, gets the stored register, and every other cell reads as before. -/
def Obligations.OnlyStoresChangeMemory : Prop :=
  ∀ s t : State, step s = .next t → (∃ a, t.readMem a ≠ s.readMem a) →
    s.run = .running ∧ s.outstanding = none ∧
    (match decode s.fetchWord with
      | .st sr off =>
        t.readMem (s.advance.pcRelative off) = s.reg sr ∧ SameMemExcept (s.advance.pcRelative off) s t
      | .sti sr off =>
        t.readMem (s.advance.indirect off) = s.reg sr ∧ SameMemExcept (s.advance.indirect off) s t
      | .str sr base off =>
        t.readMem (s.advance.baseOffset base off) = s.reg sr ∧
          SameMemExcept (s.advance.baseOffset base off) s t
      | _ => False)

/-- 10_state.md section 4: a step that changes `COND` runs one of the seven instructions that call
`setcc`, and `COND` is then the flag of the register it wrote, the one its DR field names (that the
input services are not among them is decision D13, log 16). -/
def Obligations.OnlySevenInstructionsChangeCond : Prop :=
  ∀ s t : State, step s = .next t → t.cond ≠ s.cond →
    s.run = .running ∧ s.outstanding = none ∧
    (decode s.fetchWord).opcode ∈ [Opcode.add, .and, .not, .ld, .ldi, .ldr, .lea] ∧
    t.cond = (if t.reg (drField s.fetchWord) = 0 then 0x0002
      else if (t.reg (drField s.fetchWord))[15] then 0x0004 else 0x0001)

/-- 60_exceptions.md section 1 and 43 section 4: every instruction answers a next state in every state,
but for the two refusals of service INU16 (log 10), and a step is refused for no other reason. That a
GETC or IN without input and a PUTS without terminator answer a next state too, with the request
outstanding, is the model's choice (log 7, log 9): the spec has no completed step there. -/
def Obligations.OnlyDecimalInputIsRefused : Prop :=
  (∀ (i : Instr) (s : State), (∀ ign, i ≠ .trap ign 0x26#8) → ∃ t, exec i s = .next t) ∧
  (∀ (s : State) (r : Refusal), step s = .refused r →
    s.run = .running ∧
    (r = .decimalInputMalformed ∨ r = .decimalInputTooLarge) ∧
    (s.outstanding = some .inu16 ∨
      (s.outstanding = none ∧ opcodeField s.fetchWord = 0b1111#4 ∧
        trapvect8Field s.fetchWord = 0x26#8)))

/-! ### Reset and loading -/

/-- R21: on reset `pc` is `START` and `RUN` is Running, 0x3000 with the default parameters. -/
def Obligations.ResetStartsRunningAtStart : Prop :=
  (∀ (p : Launch) (image : List Word),
    (State.launch p image).pc.toNat = (p.baseAddress.toNat + p.offset.toNat) % 65536 ∧
    (State.launch p image).run = .running) ∧
  State.reset.pc = 0x3000 ∧ State.reset.run = .running

/-- The reset values the spec decides itself (decisions D1, D3, D7 to D10; log 2, 3, 14): registers 0,
zero flag, no error, empty output; the words of the image lie at `START` upward without wrapping, and
every cell no image covers is 0. The fields `outstanding` and `strict` are the model's (log 6, 7). -/
def Obligations.ResetValuesOfTheRest : Prop :=
  ∀ (p : Launch) (image : List Word) (r : Reg),
    (State.launch p image).reg r = 0 ∧ (State.launch p image).cond = 0x0002 ∧
    (State.launch p image).err = .noError ∧ (State.launch p image).errinfo = 0 ∧
    (State.launch p image).inp = p.input ∧ (State.launch p image).out = [] ∧
    (State.launch p image).outstanding = none ∧ (State.launch p image).strict = p.strict ∧
    ∀ a : Word, (State.launch p image).readMem a =
      if h : p.start.toNat ≤ a.toNat ∧ a.toNat - p.start.toNat < image.length then
        image[a.toNat - p.start.toNat]
      else 0

/-- 70_reset_and_hazards.md section 2, the loader: the words of the file lie at `START` upward in the
byte order chosen, an odd last byte and words beyond 0xFFFF are dropped, and every other cell keeps
its content (decisions D10, D11; log 14). -/
def Obligations.LoaderPlacesTheImage : Prop :=
  ∀ (m : Memory) (p : Launch) (bytes : List Byte) (a : Word),
    (m.loadBytes p bytes).read a =
      if h : p.start.toNat ≤ a.toNat ∧ 2 * (a.toNat - p.start.toNat) + 1 < bytes.length then
        let b0 := bytes[2 * (a.toNat - p.start.toNat)]
        let b1 := bytes[2 * (a.toNat - p.start.toNat) + 1]
        match p.byteOrder with
        | .little => BitVec.ofNat 16 (b1.toNat * 256 + b0.toNat)
        | .big => BitVec.ofNat 16 (b0.toNat * 256 + b1.toNat)
      else m.read a
end

