-- ==== Sys2Proof/Laws/Decode.lean ====
section
/-! SUPPORT. The fields of a word as numbers, and the laws of sign extension and of the opcode table. -/

namespace Sys2Proof

/-- A field as a number: shift down by division, cut by remainder. -/
theorem toNat_bits (hi lo : Nat) (v : Word) :
    (bits hi lo v).toNat = v.toNat / 2 ^ lo % 2 ^ (hi - lo + 1) := by
  simp [bits, Nat.shiftRight_eq_div_pow]

/-- Concatenation as a number: the high part is a multiple of the low part's modulus. -/
theorem toNat_append_add {n k : Nat} (x : BitVec n) (y : BitVec k) :
    (x ++ y).toNat = x.toNat * 2 ^ k + y.toNat := by
  rw [BitVec.toNat_append, ← Nat.shiftLeft_add_eq_or_of_lt y.isLt, Nat.shiftLeft_eq]

@[simp] theorem toNat_regBits (r : Reg) : (regBits r).toNat = r.val := rfl

@[simp] theorem val_regOfBits (b : BitVec 3) : (regOfBits b).val = b.toNat := rfl

@[simp] theorem regOfBits_regBits (r : Reg) : regOfBits (regBits r) = r := rfl

@[simp] theorem regBits_regOfBits (b : BitVec 3) : regBits (regOfBits b) = b := rfl

/-- Each opcode value is that of the slot it selects, and the other way round (R56). -/
@[simp] theorem Opcode.ofBits_bits (o : Opcode) : Opcode.ofBits o.bits = o := by
  cases o <;> decide

@[simp] theorem Opcode.bits_ofBits : ∀ b : BitVec 4, (Opcode.ofBits b).bits = b := by decide

/-- Sign extension as signed numbers: the value is kept (R9). -/
theorem toInt_sext {n : Nat} (v : BitVec n) (h : n ≤ 16) : (sext v).toInt = v.toInt := by
  simp [sext, BitVec.toInt_signExtend_of_le h]

/-- A word in the range of an `n`-bit signed field is the sign extension of its low `n` bits. -/
theorem sext_setWidth {n : Nat} (v : Word) (hn : 0 < n) (h16 : n ≤ 16) (h : fitsSigned n v = true) :
    sext (v.setWidth n) = v := by
  apply BitVec.eq_of_toInt_eq
  obtain ⟨k, rfl⟩ : ∃ k, n = k + 1 := ⟨n - 1, by omega⟩
  simp only [fitsSigned, decide_eq_true_eq, Nat.add_sub_cancel] at h
  rw [toInt_sext _ h16, BitVec.toInt_setWidth, ← Int.bmod_bmod_of_dvd (pow_dvd_pow 2 h16),
    ← BitVec.toInt_eq_toNat_bmod]
  apply Int.bmod_eq_of_le <;> push_cast [pow_succ] <;> omega

/-- A sign-extended field is in the field's range (R53). -/
theorem fitsSigned_sext {n : Nat} (v : BitVec n) (h16 : n ≤ 16) :
    fitsSigned n (sext v) = true := by
  simp only [fitsSigned, decide_eq_true_eq, toInt_sext v h16]
  exact ⟨BitVec.le_toInt v, BitVec.toInt_lt⟩

/-- The format encoders as numbers (R51). -/
theorem toNat_encodePc9 (op : Opcode) (r : Reg) (off : Word) :
    (encodePc9 op r off).toNat = op.bits.toNat * 4096 + r.val * 512 + off.toNat % 512 := by
  simp only [encodePc9, toNat_append_add, toNat_regBits, BitVec.toNat_setWidth]; omega

theorem toNat_encodeBo6 (op : Opcode) (r base : Reg) (off : Word) :
    (encodeBo6 op r base off).toNat =
      op.bits.toNat * 4096 + r.val * 512 + base.val * 64 + off.toNat % 64 := by
  simp only [encodeBo6, toNat_append_add, toNat_regBits, BitVec.toNat_setWidth]; omega

theorem toNat_encodeRrr (op : Opcode) (dr sr1 sr2 : Reg) :
    (encodeRrr op dr sr1 sr2).toNat =
      op.bits.toNat * 4096 + dr.val * 512 + sr1.val * 64 + sr2.val := by
  simp only [encodeRrr, toNat_append_add, toNat_regBits, BitVec.toNat_ofNat]; omega

theorem toNat_encodeRri (op : Opcode) (dr sr1 : Reg) (imm : Word) :
    (encodeRri op dr sr1 imm).toNat =
      op.bits.toNat * 4096 + dr.val * 512 + sr1.val * 64 + 32 + imm.toNat % 32 := by
  simp only [encodeRri, toNat_append_add, toNat_regBits, BitVec.toNat_setWidth, BitVec.toNat_ofNat]
  omega

/-- The opcode field as a number. -/
theorem toNat_opcodeField (w : Word) : (opcodeField w).toNat = w.toNat / 4096 := by
  have := w.isLt
  rw [opcodeField, toNat_bits]; omega

end Sys2Proof
end

