-- ==== Sys2Proof/Laws/State.lean ====
section
/-! SUPPORT. One lemma per field per update of the state, and register read after write. -/

namespace Sys2Proof.Machine.State

@[simp] theorem setReg_regs (s : State) (r : Reg) (v : Word) : (s.setReg r v).regs = s.regs.set r v := rfl
@[simp] theorem setReg_pc (s : State) (r : Reg) (v : Word) : (s.setReg r v).pc = s.pc := rfl
@[simp] theorem setReg_cond (s : State) (r : Reg) (v : Word) : (s.setReg r v).cond = s.cond := rfl
@[simp] theorem setReg_run (s : State) (r : Reg) (v : Word) : (s.setReg r v).run = s.run := rfl
@[simp] theorem setReg_err (s : State) (r : Reg) (v : Word) : (s.setReg r v).err = s.err := rfl
@[simp] theorem setReg_errinfo (s : State) (r : Reg) (v : Word) : (s.setReg r v).errinfo = s.errinfo := rfl
@[simp] theorem setReg_mem (s : State) (r : Reg) (v : Word) : (s.setReg r v).mem = s.mem := rfl
@[simp] theorem setReg_inp (s : State) (r : Reg) (v : Word) : (s.setReg r v).inp = s.inp := rfl
@[simp] theorem setReg_out (s : State) (r : Reg) (v : Word) : (s.setReg r v).out = s.out := rfl
@[simp] theorem setReg_outstanding (s : State) (r : Reg) (v : Word) : (s.setReg r v).outstanding = s.outstanding := rfl
@[simp] theorem setReg_strict (s : State) (r : Reg) (v : Word) : (s.setReg r v).strict = s.strict := rfl

@[simp] theorem setPc_regs (s : State) (p : Word) : (s.setPc p).regs = s.regs := rfl
@[simp] theorem setPc_pc (s : State) (p : Word) : (s.setPc p).pc = p := rfl
@[simp] theorem setPc_cond (s : State) (p : Word) : (s.setPc p).cond = s.cond := rfl
@[simp] theorem setPc_run (s : State) (p : Word) : (s.setPc p).run = s.run := rfl
@[simp] theorem setPc_err (s : State) (p : Word) : (s.setPc p).err = s.err := rfl
@[simp] theorem setPc_errinfo (s : State) (p : Word) : (s.setPc p).errinfo = s.errinfo := rfl
@[simp] theorem setPc_mem (s : State) (p : Word) : (s.setPc p).mem = s.mem := rfl
@[simp] theorem setPc_inp (s : State) (p : Word) : (s.setPc p).inp = s.inp := rfl
@[simp] theorem setPc_out (s : State) (p : Word) : (s.setPc p).out = s.out := rfl
@[simp] theorem setPc_outstanding (s : State) (p : Word) : (s.setPc p).outstanding = s.outstanding := rfl
@[simp] theorem setPc_strict (s : State) (p : Word) : (s.setPc p).strict = s.strict := rfl

@[simp] theorem setCond_regs (s : State) (c : Word) : (s.setCond c).regs = s.regs := rfl
@[simp] theorem setCond_pc (s : State) (c : Word) : (s.setCond c).pc = s.pc := rfl
@[simp] theorem setCond_cond (s : State) (c : Word) : (s.setCond c).cond = c := rfl
@[simp] theorem setCond_run (s : State) (c : Word) : (s.setCond c).run = s.run := rfl
@[simp] theorem setCond_err (s : State) (c : Word) : (s.setCond c).err = s.err := rfl
@[simp] theorem setCond_errinfo (s : State) (c : Word) : (s.setCond c).errinfo = s.errinfo := rfl
@[simp] theorem setCond_mem (s : State) (c : Word) : (s.setCond c).mem = s.mem := rfl
@[simp] theorem setCond_inp (s : State) (c : Word) : (s.setCond c).inp = s.inp := rfl
@[simp] theorem setCond_out (s : State) (c : Word) : (s.setCond c).out = s.out := rfl
@[simp] theorem setCond_outstanding (s : State) (c : Word) : (s.setCond c).outstanding = s.outstanding := rfl
@[simp] theorem setCond_strict (s : State) (c : Word) : (s.setCond c).strict = s.strict := rfl

@[simp] theorem writeMem_regs (s : State) (a v : Word) : (s.writeMem a v).regs = s.regs := rfl
@[simp] theorem writeMem_pc (s : State) (a v : Word) : (s.writeMem a v).pc = s.pc := rfl
@[simp] theorem writeMem_cond (s : State) (a v : Word) : (s.writeMem a v).cond = s.cond := rfl
@[simp] theorem writeMem_run (s : State) (a v : Word) : (s.writeMem a v).run = s.run := rfl
@[simp] theorem writeMem_err (s : State) (a v : Word) : (s.writeMem a v).err = s.err := rfl
@[simp] theorem writeMem_errinfo (s : State) (a v : Word) : (s.writeMem a v).errinfo = s.errinfo := rfl
@[simp] theorem writeMem_mem (s : State) (a v : Word) : (s.writeMem a v).mem = s.mem.write a v := rfl
@[simp] theorem writeMem_inp (s : State) (a v : Word) : (s.writeMem a v).inp = s.inp := rfl
@[simp] theorem writeMem_out (s : State) (a v : Word) : (s.writeMem a v).out = s.out := rfl
@[simp] theorem writeMem_outstanding (s : State) (a v : Word) : (s.writeMem a v).outstanding = s.outstanding := rfl
@[simp] theorem writeMem_strict (s : State) (a v : Word) : (s.writeMem a v).strict = s.strict := rfl

@[simp] theorem emit_regs (s : State) (bs : List Byte) : (s.emit bs).regs = s.regs := rfl
@[simp] theorem emit_pc (s : State) (bs : List Byte) : (s.emit bs).pc = s.pc := rfl
@[simp] theorem emit_cond (s : State) (bs : List Byte) : (s.emit bs).cond = s.cond := rfl
@[simp] theorem emit_run (s : State) (bs : List Byte) : (s.emit bs).run = s.run := rfl
@[simp] theorem emit_err (s : State) (bs : List Byte) : (s.emit bs).err = s.err := rfl
@[simp] theorem emit_errinfo (s : State) (bs : List Byte) : (s.emit bs).errinfo = s.errinfo := rfl
@[simp] theorem emit_mem (s : State) (bs : List Byte) : (s.emit bs).mem = s.mem := rfl
@[simp] theorem emit_inp (s : State) (bs : List Byte) : (s.emit bs).inp = s.inp := rfl
@[simp] theorem emit_out (s : State) (bs : List Byte) : (s.emit bs).out = s.out ++ bs := rfl
@[simp] theorem emit_outstanding (s : State) (bs : List Byte) : (s.emit bs).outstanding = s.outstanding := rfl
@[simp] theorem emit_strict (s : State) (bs : List Byte) : (s.emit bs).strict = s.strict := rfl

@[simp] theorem setInp_regs (s : State) (bs : List Byte) : (s.setInp bs).regs = s.regs := rfl
@[simp] theorem setInp_pc (s : State) (bs : List Byte) : (s.setInp bs).pc = s.pc := rfl
@[simp] theorem setInp_cond (s : State) (bs : List Byte) : (s.setInp bs).cond = s.cond := rfl
@[simp] theorem setInp_run (s : State) (bs : List Byte) : (s.setInp bs).run = s.run := rfl
@[simp] theorem setInp_err (s : State) (bs : List Byte) : (s.setInp bs).err = s.err := rfl
@[simp] theorem setInp_errinfo (s : State) (bs : List Byte) : (s.setInp bs).errinfo = s.errinfo := rfl
@[simp] theorem setInp_mem (s : State) (bs : List Byte) : (s.setInp bs).mem = s.mem := rfl
@[simp] theorem setInp_inp (s : State) (bs : List Byte) : (s.setInp bs).inp = bs := rfl
@[simp] theorem setInp_out (s : State) (bs : List Byte) : (s.setInp bs).out = s.out := rfl
@[simp] theorem setInp_outstanding (s : State) (bs : List Byte) : (s.setInp bs).outstanding = s.outstanding := rfl
@[simp] theorem setInp_strict (s : State) (bs : List Byte) : (s.setInp bs).strict = s.strict := rfl

@[simp] theorem halt_regs (s : State) : s.halt.regs = s.regs := rfl
@[simp] theorem halt_pc (s : State) : s.halt.pc = s.pc := rfl
@[simp] theorem halt_cond (s : State) : s.halt.cond = s.cond := rfl
@[simp] theorem halt_run (s : State) : s.halt.run = .halted := rfl
@[simp] theorem halt_err (s : State) : s.halt.err = s.err := rfl
@[simp] theorem halt_errinfo (s : State) : s.halt.errinfo = s.errinfo := rfl
@[simp] theorem halt_mem (s : State) : s.halt.mem = s.mem := rfl
@[simp] theorem halt_inp (s : State) : s.halt.inp = s.inp := rfl
@[simp] theorem halt_out (s : State) : s.halt.out = s.out := rfl
@[simp] theorem halt_outstanding (s : State) : s.halt.outstanding = s.outstanding := rfl
@[simp] theorem halt_strict (s : State) : s.halt.strict = s.strict := rfl

@[simp] theorem setOutstanding_regs (s : State) (o : Option Service) : (s.setOutstanding o).regs = s.regs := rfl
@[simp] theorem setOutstanding_pc (s : State) (o : Option Service) : (s.setOutstanding o).pc = s.pc := rfl
@[simp] theorem setOutstanding_cond (s : State) (o : Option Service) : (s.setOutstanding o).cond = s.cond := rfl
@[simp] theorem setOutstanding_run (s : State) (o : Option Service) : (s.setOutstanding o).run = s.run := rfl
@[simp] theorem setOutstanding_err (s : State) (o : Option Service) : (s.setOutstanding o).err = s.err := rfl
@[simp] theorem setOutstanding_errinfo (s : State) (o : Option Service) : (s.setOutstanding o).errinfo = s.errinfo := rfl
@[simp] theorem setOutstanding_mem (s : State) (o : Option Service) : (s.setOutstanding o).mem = s.mem := rfl
@[simp] theorem setOutstanding_inp (s : State) (o : Option Service) : (s.setOutstanding o).inp = s.inp := rfl
@[simp] theorem setOutstanding_out (s : State) (o : Option Service) : (s.setOutstanding o).out = s.out := rfl
@[simp] theorem setOutstanding_outstanding (s : State) (o : Option Service) : (s.setOutstanding o).outstanding = o := rfl
@[simp] theorem setOutstanding_strict (s : State) (o : Option Service) : (s.setOutstanding o).strict = s.strict := rfl

@[simp] theorem raise_regs (s : State) (k : Cause) (w : Word) : (s.raise k w).regs = s.regs := rfl
@[simp] theorem raise_pc (s : State) (k : Cause) (w : Word) : (s.raise k w).pc = s.pc := rfl
@[simp] theorem raise_cond (s : State) (k : Cause) (w : Word) : (s.raise k w).cond = s.cond := rfl
@[simp] theorem raise_run (s : State) (k : Cause) (w : Word) : (s.raise k w).run = .faulted := rfl
@[simp] theorem raise_err (s : State) (k : Cause) (w : Word) : (s.raise k w).err = k := rfl
@[simp] theorem raise_errinfo (s : State) (k : Cause) (w : Word) : (s.raise k w).errinfo = w := rfl
@[simp] theorem raise_mem (s : State) (k : Cause) (w : Word) : (s.raise k w).mem = s.mem := rfl
@[simp] theorem raise_inp (s : State) (k : Cause) (w : Word) : (s.raise k w).inp = s.inp := rfl
@[simp] theorem raise_out (s : State) (k : Cause) (w : Word) : (s.raise k w).out = s.out := rfl
@[simp] theorem raise_outstanding (s : State) (k : Cause) (w : Word) : (s.raise k w).outstanding = s.outstanding := rfl
@[simp] theorem raise_strict (s : State) (k : Cause) (w : Word) : (s.raise k w).strict = s.strict := rfl

@[simp] theorem reg_setReg_same (s : State) (r : Reg) (v : Word) : (s.setReg r v).reg r = v := by
  simp [reg]

theorem reg_setReg (s : State) (r q : Reg) (v : Word) :
    (s.setReg r v).reg q = if q = r then v else s.reg q := by
  simp [reg, Vector.getElem_set, Fin.ext_iff, eq_comm]

@[simp] theorem reg_setReg_other (s : State) (r q : Reg) (v : Word) (h : q ≠ r) :
    (s.setReg r v).reg q = s.reg q := by
  simp [reg_setReg, h]

@[simp] theorem setReg_readMem (s : State) (r : Reg) (v : Word) (a : Word) : (s.setReg r v).readMem a = s.readMem a := rfl
@[simp] theorem setPc_reg (s : State) (p : Word) (r : Reg) : (s.setPc p).reg r = s.reg r := rfl
@[simp] theorem setPc_readMem (s : State) (p : Word) (a : Word) : (s.setPc p).readMem a = s.readMem a := rfl
@[simp] theorem setCond_reg (s : State) (c : Word) (r : Reg) : (s.setCond c).reg r = s.reg r := rfl
@[simp] theorem setCond_readMem (s : State) (c : Word) (a : Word) : (s.setCond c).readMem a = s.readMem a := rfl
@[simp] theorem writeMem_reg (s : State) (a v : Word) (r : Reg) : (s.writeMem a v).reg r = s.reg r := rfl
@[simp] theorem emit_reg (s : State) (bs : List Byte) (r : Reg) : (s.emit bs).reg r = s.reg r := rfl
@[simp] theorem emit_readMem (s : State) (bs : List Byte) (a : Word) : (s.emit bs).readMem a = s.readMem a := rfl
@[simp] theorem setInp_reg (s : State) (bs : List Byte) (r : Reg) : (s.setInp bs).reg r = s.reg r := rfl
@[simp] theorem setInp_readMem (s : State) (bs : List Byte) (a : Word) : (s.setInp bs).readMem a = s.readMem a := rfl
@[simp] theorem halt_reg (s : State) (r : Reg) : s.halt.reg r = s.reg r := rfl
@[simp] theorem halt_readMem (s : State) (a : Word) : s.halt.readMem a = s.readMem a := rfl
@[simp] theorem setOutstanding_reg (s : State) (o : Option Service) (r : Reg) : (s.setOutstanding o).reg r = s.reg r := rfl
@[simp] theorem setOutstanding_readMem (s : State) (o : Option Service) (a : Word) : (s.setOutstanding o).readMem a = s.readMem a := rfl
@[simp] theorem raise_reg (s : State) (k : Cause) (w : Word) (r : Reg) : (s.raise k w).reg r = s.reg r := rfl
@[simp] theorem raise_readMem (s : State) (k : Cause) (w : Word) (a : Word) : (s.raise k w).readMem a = s.readMem a := rfl

/-- `advance` changes `pc` alone. -/
theorem advance_eq (s : State) : s.advance = s.setPc (s.pc + 1) := rfl

end Sys2Proof.Machine.State
end

