-- ==== Sys2Proof/Laws/Memory.lean ====
section
/-! SUPPORT. The laws of the Word Store: read after write, and that every operation keeps the canonical form. -/

namespace Sys2Proof.Machine

namespace Memory

theorem lookup_without_same (m : Memory) (a : Nat) : (m.without a).lookup a = unlisted := by
  induction m with
  | nil => rfl
  | cons c m ih =>
    by_cases h : c.1 = a
    · simpa [without, h] using ih
    · simpa [without, h, lookup] using ih

theorem lookup_without_other (m : Memory) {a b : Nat} (hb : b ≠ a) :
    (m.without a).lookup b = m.lookup b := by
  induction m with
  | nil => rfl
  | cons c m ih =>
    by_cases h : c.1 = a
    · simpa [without, h, lookup, hb.symm] using ih
    · by_cases hc : c.1 = b <;> simp_all [without, lookup]

theorem lookup_place_other (m : Memory) {a b : Nat} (v : Word) (hb : b ≠ a) :
    (place a v m).lookup b = m.lookup b := by
  induction m with
  | nil => simp [place, lookup, hb.symm]
  | cons c m ih =>
    by_cases h : a < c.1
    · simp [place, h, lookup, hb.symm]
    · simp [place, h, lookup, ih]

theorem lookup_place_same (m : Memory) (a : Nat) (v : Word) (h : ∀ c ∈ m, c.1 ≠ a) :
    (place a v m).lookup a = v := by
  induction m with
  | nil => simp [place, lookup]
  | cons c m ih =>
    by_cases hc : a < c.1
    · simp [place, hc, lookup]
    · simp [place, hc, lookup, h c (by simp), ih fun d hd => h d (by simp [hd])]

theorem without_ne (m : Memory) (a : Nat) : ∀ c ∈ m.without a, c.1 ≠ a := by
  simp [without]

/-- A read after a write to the same address, and to every other. -/
theorem lookup_put (m : Memory) (a b : Nat) (v : Word) :
    (m.put a v).lookup b = if b = a then v else m.lookup b := by
  by_cases hb : b = a
  · subst hb
    by_cases hv : v = unlisted
    · simp [put, hv, lookup_without_same]
    · simp [put, hv, lookup_place_same _ _ _ (without_ne m b)]
  · by_cases hv : v = unlisted
    · simp [put, hv, hb, lookup_without_other m hb]
    · simp [put, hv, hb, lookup_place_other _ v hb, lookup_without_other m hb]

/-- The read of one cell after a write to one cell (20_memory.md R32, R33). -/
theorem read_write (m : Memory) (a b v : Word) :
    (m.write a v).read b = if b = a then v else m.read b := by
  simp [read, write, lookup_put, BitVec.toNat_inj]

theorem without_wf {m : Memory} (h : m.wf) (a : Nat) : (m.without a).wf :=
  ⟨h.1.filter _, fun c hc => h.2 c (List.mem_filter.mp hc).1⟩

theorem mem_place {m : Memory} {a : Nat} {v : Word} {c : Nat × Word} :
    c ∈ place a v m ↔ c = (a, v) ∨ c ∈ m := by
  induction m with
  | nil => simp [place]
  | cons d m ih =>
    by_cases h : a < d.1
    · simp [place, h]
    · simp [place, h, ih]; tauto

theorem place_wf {m : Memory} (h : m.wf) {a : Nat} {v : Word} (ha : a < 65536)
    (hv : v ≠ unlisted) (hn : ∀ c ∈ m, c.1 ≠ a) : (place a v m).wf := by
  refine ⟨?_, fun c hc => ?_⟩
  · obtain ⟨hp, -⟩ := h
    induction m with
    | nil => simp [place]
    | cons d m ih =>
      rw [List.pairwise_cons] at hp
      by_cases hd : a < d.1
      · simp only [place, hd, if_true, List.pairwise_cons, List.mem_cons, forall_eq_or_imp]
        exact ⟨⟨trivial, fun c hc => lt_trans hd (hp.1 c hc)⟩, hp⟩
      · have hne := hn d (by simp)
        simp only [place, hd, if_false, List.pairwise_cons, mem_place, forall_eq_or_imp]
        exact ⟨⟨show d.1 < a by omega, hp.1⟩, ih (fun c hc => hn c (by simp [hc])) hp.2⟩
  · rcases mem_place.mp hc with rfl | hc
    · exact ⟨ha, hv⟩
    · exact h.2 c hc

/-- Writing a cell keeps the canonical form. -/
theorem put_wf {m : Memory} (h : m.wf) {a : Nat} (ha : a < 65536) (v : Word) : (m.put a v).wf := by
  by_cases hv : v = unlisted
  · simpa [put, hv] using without_wf h a
  · simpa [put, hv] using place_wf (without_wf h a) ha hv (without_ne m a)

theorem write_wf {m : Memory} (h : m.wf) (a v : Word) : (m.write a v).wf := put_wf h a.isLt v

/-- What a cell holds after a load: the word that lies on it, else what it held
(70_reset_and_hazards.md R173, R174). -/
theorem lookup_loadWords (m : Memory) (a b : Nat) (ws : List Word) (hb : b < 65536) :
    (m.loadWords a ws).lookup b =
      if h : a ≤ b ∧ b - a < ws.length then ws[b - a] else m.lookup b := by
  induction ws generalizing m a with
  | nil => simp [loadWords]
  | cons w ws ih =>
    unfold loadWords
    split_ifs with ha hin hin
    · rw [ih, lookup_put]
      by_cases hab : b = a
      · subst hab; simp
      · have hin' : a + 1 ≤ b ∧ b - (a + 1) < ws.length :=
          ⟨by omega, by have := hin.2; simp only [List.length_cons] at this; omega⟩
        have hsub : b - a = (b - (a + 1)) + 1 := by omega
        rw [dif_pos hin']
        simp [hsub]
    · rw [ih, lookup_put, dif_neg (by simp only [List.length_cons] at hin; omega), if_neg]
      rintro rfl
      simp at hin
    · omega
    · rfl

/-- Loading keeps the canonical form. -/
theorem loadWords_wf {m : Memory} (h : m.wf) (a : Nat) (ws : List Word) : (m.loadWords a ws).wf := by
  induction ws generalizing m a with
  | nil => exact h
  | cons w ws ih =>
    by_cases ha : a ≤ 0xFFFF
    · simpa [loadWords, ha] using ih (put_wf h (by omega) w) (a + 1)
    · simpa [loadWords, ha] using h

end Memory

namespace State

theorem readMem_writeMem (s : State) (a b v : Word) :
    (s.writeMem a v).readMem b = if b = a then v else s.readMem b := Memory.read_write s.mem a b v

@[simp] theorem readMem_writeMem_same (s : State) (a v : Word) : (s.writeMem a v).readMem a = v := by
  simp [readMem_writeMem]

@[simp] theorem readMem_writeMem_other (s : State) (a b v : Word) (h : b ≠ a) :
    (s.writeMem a v).readMem b = s.readMem b := by
  simp [readMem_writeMem, h]

end State

/-- The memory at reset has the canonical form. -/
theorem reset_mem_wf : State.reset.mem.wf := by decide

/-- The launch of the default parameters with no image is the reset state. -/
theorem launch_default_eq_reset : State.launch (Launch.mk 0x3000 0 false .little []) [] = State.reset := by
  decide

end Sys2Proof.Machine
end

