-- ==== Sys2Proof/Laws/Ops.lean ====
section
/-! SUPPORT. One lemma per shared operation: everything it does, in the terms of Safety.lean. -/

namespace Sys2Proof.Machine

/-- `condOf` in the numbers of 10_state.md R15. -/
theorem condOf_eq (v : Word) :
    condOf v = (if v = 0x0000 then 0x0002 else if v[15] then 0x0004 else 0x0001) := by
  have : v.msb = v[15] := by simp [BitVec.msb_eq_getLsbD_last]
  simp [condOf, condN, condZ, condP, this]

theorem condOf_legal (v : Word) : condOf v = condN ∨ condOf v = condZ ∨ condOf v = condP := by
  unfold condOf; split_ifs <;> simp

/-- Writing a result: the register, its flag, and nothing else. -/
theorem writeResult_resultOnly (s : State) (dr : Reg) (v : Word) :
    ResultOnly dr v s (s.writeResult dr v) := by
  refine ⟨by simp [State.writeResult, State.setcc], ?_, fun r hr => ?_, rfl, fun _ => rfl,
    ⟨rfl, rfl⟩, ⟨rfl, rfl, rfl, rfl, rfl⟩⟩
  · simpa [State.writeResult, State.setcc] using condOf_eq v
  · have : r ≠ dr := by simpa using hr
    simp [State.writeResult, State.setcc, this]

/-- Storing a word: that cell and nothing else. -/
theorem writeMem_storeOnly (s : State) (e v : Word) : StoreOnly e v s (s.writeMem e v) :=
  ⟨by simp, fun a ha => by simp [ha], fun _ _ => rfl, rfl, rfl, ⟨rfl, rfl⟩,
    ⟨rfl, rfl, rfl, rfl, rfl⟩⟩

/-- Setting `pc`: nothing else. -/
theorem setPc_pcOnly (s : State) (target : Word) : PcOnly target s (s.setPc target) :=
  ⟨rfl, fun _ _ => rfl, rfl, fun _ => rfl, ⟨rfl, rfl⟩, ⟨rfl, rfl, rfl, rfl, rfl⟩⟩

/-- Leaving the state alone, seen as setting `pc` to itself. -/
theorem self_pcOnly (s : State) : PcOnly s.pc s s :=
  ⟨rfl, fun _ _ => rfl, rfl, fun _ => rfl, ⟨rfl, rfl⟩, ⟨rfl, rfl, rfl, rfl, rfl⟩⟩

/-- Saving the link and jumping: the link register, `pc` and nothing else. -/
theorem call_callOnly (s : State) (ret target : Word) :
    CallOnly ret target s ((s.setReg linkReg ret).setPc target) := by
  refine ⟨by simp [linkReg], rfl, fun r hr => ?_, rfl, fun _ => rfl, ⟨rfl, rfl⟩,
    ⟨rfl, rfl, rfl, rfl, rfl⟩⟩
  have : r ≠ 7 := by simpa using hr
  simp [linkReg, this]

/-- Raising a failure: the three writes of 60_exceptions.md R153 and nothing else. -/
theorem raise_failureOnly (s : State) (k : Cause) (w : Word) : FailureOnly k w s (s.raise k w) :=
  ⟨rfl, rfl, rfl, fun _ _ => rfl, rfl, rfl, fun _ => rfl, ⟨rfl, rfl⟩, rfl, rfl⟩

/-- Placing the next word: what the next fetch reads (30_encoding.md R60). -/
theorem placeNextWord_fetch (s : State) (w : Word) : (placeNextWord s w).fetchWord = w :=
  State.readMem_writeMem_same s s.pc w

end Sys2Proof.Machine
end

