-- ==== Sys2Proof/Laws/PerInstr.lean ====
section
/-! SUPPORT. Per-instruction laws: the encoding of every instruction carries the opcode of its handler slot. -/

namespace Sys2Proof.Laws.OpcodeOfEncoding

/-- The top four bits of the encoding are the opcode value of R56. -/
def Statement (i : Instr) : Prop := opcodeField (encode i) = i.opcode.bits

theorem of_toNat {i : Instr} (h : (encode i).toNat / 4096 = i.opcode.bits.toNat) : Statement i :=
  BitVec.eq_of_toNat_eq (by rw [toNat_opcodeField, h])

theorem br (nzp : BitVec 3) (off : Word) : Statement (.br nzp off) := by
  refine of_toNat ?_
  simp only [encode, Instr.opcode, toNat_append_add, BitVec.toNat_setWidth]
  omega

theorem addReg (dr : Reg) (sr1 : Reg) (sr2 : Reg) : Statement (.addReg dr sr1 sr2) := by
  refine of_toNat ?_
  simp only [encode, Instr.opcode, toNat_encodeRrr]
  omega

theorem addImm (dr : Reg) (sr1 : Reg) (imm : Word) : Statement (.addImm dr sr1 imm) := by
  refine of_toNat ?_
  simp only [encode, Instr.opcode, toNat_encodeRri]
  omega

theorem ld (dr : Reg) (off : Word) : Statement (.ld dr off) := by
  refine of_toNat ?_
  simp only [encode, Instr.opcode, toNat_encodePc9]
  omega

theorem st (sr : Reg) (off : Word) : Statement (.st sr off) := by
  refine of_toNat ?_
  simp only [encode, Instr.opcode, toNat_encodePc9]
  omega

theorem jsrr (base : Reg) : Statement (.jsrr base) := by
  refine of_toNat ?_
  simp only [encode, Instr.opcode, toNat_append_add, toNat_regBits, BitVec.toNat_ofNat]
  omega

theorem jsr (off : Word) : Statement (.jsr off) := by
  refine of_toNat ?_
  simp only [encode, Instr.opcode, toNat_append_add, BitVec.toNat_setWidth, BitVec.toNat_ofNat]
  omega

theorem andReg (dr : Reg) (sr1 : Reg) (sr2 : Reg) : Statement (.andReg dr sr1 sr2) := by
  refine of_toNat ?_
  simp only [encode, Instr.opcode, toNat_encodeRrr]
  omega

theorem andImm (dr : Reg) (sr1 : Reg) (imm : Word) : Statement (.andImm dr sr1 imm) := by
  refine of_toNat ?_
  simp only [encode, Instr.opcode, toNat_encodeRri]
  omega

theorem ldr (dr : Reg) (base : Reg) (off : Word) : Statement (.ldr dr base off) := by
  refine of_toNat ?_
  simp only [encode, Instr.opcode, toNat_encodeBo6]
  omega

theorem str (sr : Reg) (base : Reg) (off : Word) : Statement (.str sr base off) := by
  refine of_toNat ?_
  simp only [encode, Instr.opcode, toNat_encodeBo6]
  omega

theorem rti (ign : BitVec 12) : Statement (.rti ign) := by
  refine of_toNat ?_
  simp only [encode, Instr.opcode, toNat_append_add]
  omega

theorem not (dr : Reg) (sr1 : Reg) : Statement (.not dr sr1) := by
  refine of_toNat ?_
  simp only [encode, Instr.opcode, toNat_append_add, toNat_regBits, BitVec.toNat_ofNat]
  omega

theorem ldi (dr : Reg) (off : Word) : Statement (.ldi dr off) := by
  refine of_toNat ?_
  simp only [encode, Instr.opcode, toNat_encodePc9]
  omega

theorem sti (sr : Reg) (off : Word) : Statement (.sti sr off) := by
  refine of_toNat ?_
  simp only [encode, Instr.opcode, toNat_encodePc9]
  omega

theorem jmp (base : Reg) : Statement (.jmp base) := by
  refine of_toNat ?_
  simp only [encode, Instr.opcode, toNat_append_add, toNat_regBits, BitVec.toNat_ofNat]
  omega

theorem res (ign : BitVec 12) : Statement (.res ign) := by
  refine of_toNat ?_
  simp only [encode, Instr.opcode, toNat_append_add]
  omega

theorem lea (dr : Reg) (off : Word) : Statement (.lea dr off) := by
  refine of_toNat ?_
  simp only [encode, Instr.opcode, toNat_encodePc9]
  omega

theorem trap (ign : BitVec 4) (vect : BitVec 8) : Statement (.trap ign vect) := by
  refine of_toNat ?_
  simp only [encode, Instr.opcode, toNat_append_add]
  omega

end Sys2Proof.Laws.OpcodeOfEncoding
end

