-- ==== Sys2Proof/Laws/Services.lean ====
section
/-! SUPPORT. What an attempt of a service can do, and what `perform` can answer. -/

namespace Sys2Proof.Machine

/-- The vector table, entry by entry (R121), in the spelling simp gives a literal vector. -/
@[simp] theorem ofVector_getc : Service.ofVector 0x20#8 = some .getc := by decide
@[simp] theorem ofVector_out : Service.ofVector 0x21#8 = some .out := by decide
@[simp] theorem ofVector_puts : Service.ofVector 0x22#8 = some .puts := by decide
@[simp] theorem ofVector_input : Service.ofVector 0x23#8 = some .input := by decide
@[simp] theorem ofVector_reserved : Service.ofVector 0x24#8 = some .reserved := by decide
@[simp] theorem ofVector_halt : Service.ofVector 0x25#8 = some .halt := by decide
@[simp] theorem ofVector_inu16 : Service.ofVector 0x26#8 = some .inu16 := by decide
@[simp] theorem ofVector_outu16 : Service.ofVector 0x27#8 = some .outu16 := by decide

/-- Which vectors select no service (R123). -/
theorem ofVector_eq_none : ∀ v : BitVec 8,
    Service.ofVector v = none ↔ (v.toNat < 0x20 ∨ 0x27 < v.toNat) := by decide

/-- Everything one attempt of a service may change of `s` to give `t`: the I/O register, the two
streams (input consumed from the front, output appended), and `RUN` for HALT alone. -/
structure ServiceEffect (svc : Service) (s t : State) : Prop where
  keeps : ServiceKeeps [0] s t
  out : s.out <+: t.out
  inp : t.inp <:+ s.inp
  run : t.run = s.run ∨ (svc = .halt ∧ t.run = .halted)
  outstanding : t.outstanding = s.outstanding
  mem : t.mem = s.mem

/-- The state of a result that has one. -/
def ServiceResult.state? : ServiceResult → Option State
  | .done t => some t
  | .waiting t => some t
  | .refused _ => none

theorem serviceEffect_refl (svc : Service) (s : State) : ServiceEffect svc s s :=
  ⟨⟨fun _ _ => rfl, rfl, rfl, fun _ => rfl, rfl, rfl, rfl⟩, List.prefix_refl _,
    List.suffix_refl _, .inl rfl, rfl, rfl⟩

theorem serviceEffect_emit {svc : Service} {s t : State} (h : ServiceEffect svc s t)
    (bs : List Byte) : ServiceEffect svc s (t.emit bs) :=
  ⟨h.keeps, h.out.trans (List.prefix_append _ _), h.inp, h.run, h.outstanding, h.mem⟩

theorem serviceEffect_setInp {svc : Service} {s t : State} (h : ServiceEffect svc s t)
    {rest : List Byte} (hr : rest <:+ s.inp) : ServiceEffect svc s (t.setInp rest) :=
  ⟨h.keeps, h.out, hr, h.run, h.outstanding, h.mem⟩

theorem serviceEffect_setReg {svc : Service} {s t : State} (h : ServiceEffect svc s t)
    (v : Word) : ServiceEffect svc s (t.setReg ioReg v) := by
  obtain ⟨hr, hk⟩ := h.keeps
  refine ⟨⟨fun r hne => ?_, hk⟩, h.out, h.inp, h.run, h.outstanding, h.mem⟩
  have : r ≠ ioReg := by simpa [ioReg] using hne
  rw [State.reg_setReg_other _ _ _ _ this, hr r hne]

/-- The spec lemma of `attempt` (43_trap_and_reserved.md R121, R122). -/
theorem attempt_effect {svc : Service} {s t : State} (h : (attempt svc s).state? = some t) :
    ServiceEffect svc s t := by
  have r := serviceEffect_refl svc s
  cases svc with
  | getc =>
    simp only [attempt, serviceGetc] at h
    split at h <;> cases h
    · exact r
    · next c rest hs => exact serviceEffect_setReg (serviceEffect_setInp r (hs ▸ List.suffix_cons c rest)) _
  | out => cases h; exact serviceEffect_emit r _
  | puts =>
    simp only [attempt, servicePuts] at h
    split at h <;> cases h <;> exact serviceEffect_emit r _
  | input =>
    simp only [attempt, serviceInput] at h
    split at h <;> cases h
    · exact r
    · next c rest hs =>
      exact serviceEffect_emit (serviceEffect_setReg
        (serviceEffect_setInp r (hs ▸ List.suffix_cons c rest)) _) _
  | reserved => cases h; exact r
  | halt => cases h; exact ⟨r.keeps, r.out, r.inp, .inr ⟨rfl, rfl⟩, rfl, rfl⟩
  | inu16 =>
    simp only [attempt, serviceInu16] at h
    split at h
    · cases h; exact serviceEffect_setInp r (List.nil_suffix)
    · split_ifs at h <;> cases h
      exact serviceEffect_setReg (serviceEffect_setInp r
        ((List.dropWhile_suffix _).trans (List.dropWhile_suffix _))) _
  | outu16 => cases h; exact serviceEffect_emit r _

/-- The addresses of a walk, counted from its second word. -/
theorem add_one_add_ofNat (a : Word) (k : Nat) :
    a + 1 + BitVec.ofNat 16 k = a + BitVec.ofNat 16 (k + 1) := by
  apply BitVec.eq_of_toNat_eq
  simp [BitVec.toNat_add]
  omega

/-- A walk over words none of which is zero meets no terminator (R126). -/
theorem stringFrom_of_ne_zero {m : Memory} (h : ∀ a, m.read a ≠ 0) (fuel : Nat) (a : Word) :
    stringFrom m fuel a =
      ((List.range fuel).map fun k => lowByte (m.read (a + BitVec.ofNat 16 k)), false) := by
  induction fuel generalizing a with
  | zero => rfl
  | succ fuel ih =>
    simp only [stringFrom, h a, if_false, ih, add_one_add_ofNat, List.range_succ_eq_map]
    simp

/-- Only the input services and PUTS can fail to complete (R132, R126). -/
theorem attempt_waiting {svc : Service} {s t : State} (h : attempt svc s = .waiting t) :
    svc = .getc ∨ svc = .input ∨ svc = .inu16 ∨ svc = .puts := by
  cases svc <;> simp_all [attempt, serviceOut, serviceReserved, serviceHalt, serviceOutu16]

/-- Only INU16 can be refused, and for one of its two reasons (R130). -/
theorem attempt_refused {svc : Service} {s : State} {r : Refusal} (h : attempt svc s = .refused r) :
    svc = .inu16 ∧ (r = .decimalInputMalformed ∨ r = .decimalInputTooLarge) := by
  cases svc with
  | getc => simp only [attempt, serviceGetc] at h; split at h <;> cases h
  | out => cases h
  | puts => simp only [attempt, servicePuts] at h; split at h <;> cases h
  | input => simp only [attempt, serviceInput] at h; split at h <;> cases h
  | reserved => cases h
  | halt => cases h
  | inu16 =>
    simp only [attempt, serviceInu16] at h
    split at h
    · cases h
    · split_ifs at h <;> cases h <;> simp
  | outu16 => cases h

/-- HALT always completes. -/
theorem attempt_halt (s : State) : attempt .halt s = .done s.halt := rfl

/-- The inversion lemma of `perform`: it completes, or it leaves the request outstanding. -/
theorem perform_next {svc : Service} {s t : State} (h : perform svc s = .next t) :
    (∃ u, attempt svc s = .done u ∧ t = u.setOutstanding none) ∨
    (∃ u, attempt svc s = .waiting u ∧ t = u.setOutstanding (some svc)) := by
  unfold perform at h
  split at h <;> cases h
  · next u hu => exact .inl ⟨u, hu, rfl⟩
  · next u hu => exact .inr ⟨u, hu, rfl⟩

theorem perform_refused {svc : Service} {s : State} {r : Refusal} (h : perform svc s = .refused r) :
    attempt svc s = .refused r := by
  unfold perform at h
  split at h <;> cases h
  assumption

end Sys2Proof.Machine
end

