-- ==== Sys2Proof/Laws/Step.lean ====
section
/-! SUPPORT. The inversion lemma of the step, and of the execution of an instruction. -/

namespace Sys2Proof.Machine

/-- Everything a step can be: the core has ended and stays, it takes up the outstanding request, or
it fetches and executes (30_encoding.md R60). -/
theorem step_next {s t : State} (h : step s = .next t) :
    (s.run ≠ .running ∧ t = s) ∨
    (s.run = .running ∧ ∃ svc, s.outstanding = some svc ∧ perform svc s = .next t) ∨
    (s.run = .running ∧ s.outstanding = none ∧ exec (decode s.fetchWord) s.advance = .next t) := by
  unfold step cycle at h
  split at h
  · next hr => cases h; exact .inl ⟨by simp [hr], rfl⟩
  · next hr => cases h; exact .inl ⟨by simp [hr], rfl⟩
  · next hr =>
    split at h
    · next svc ho => exact .inr (.inl ⟨hr, svc, ho, h⟩)
    · next ho => exact .inr (.inr ⟨hr, ho, h⟩)

theorem step_refused {s : State} {r : Refusal} (h : step s = .refused r) :
    s.run = .running ∧
    ((∃ svc, s.outstanding = some svc ∧ perform svc s = .refused r) ∨
     (s.outstanding = none ∧ exec (decode s.fetchWord) s.advance = .refused r)) := by
  unfold step cycle at h
  split at h
  · cases h
  · cases h
  · next hr =>
    split at h
    · next svc ho => exact ⟨hr, .inl ⟨svc, ho, h⟩⟩
    · next ho => exact ⟨hr, .inr ⟨ho, h⟩⟩

/-- Everything executing an instruction can be (30_encoding.md R61): a result with its flag, a
store, a jump, a call, a failure, nothing, or a service. -/
theorem exec_next {i : Instr} {s t : State} (h : exec i s = .next t) :
    (i.opcode ∈ [Opcode.add, .and, .not, .ld, .ldi, .ldr, .lea] ∧ ∃ dr v, t = s.writeResult dr v) ∨
    ((∃ sr off, i = .st sr off ∧ t = s.writeMem (s.pcRelative off) (s.reg sr)) ∨
     (∃ sr off, i = .sti sr off ∧ t = s.writeMem (s.indirect off) (s.reg sr)) ∨
     (∃ sr base off, i = .str sr base off ∧ t = s.writeMem (s.baseOffset base off) (s.reg sr))) ∨
    (i.opcode ∈ [Opcode.br, .jmp] ∧ ∃ p, t = s.setPc p) ∨
    (i.opcode = .jsr ∧ ∃ p, t = (s.setReg linkReg s.pc).setPc p) ∨
    (i.opcode ∈ [Opcode.rti, .res] ∧
      ((s.strict = false ∧ t = s) ∨
       (s.strict = true ∧ t = s.raise .unimplementedOpcode (encode i)))) ∨
    (∃ ign vect, i = .trap ign vect ∧
      ((Service.ofVector vect = none ∧ t = s.raise .invalidTrap (encode i)) ∨
       ∃ svc, Service.ofVector vect = some svc ∧ perform svc s = .next t)) := by
  cases i with
  | br nzp off =>
    refine .inr (.inr (.inl ⟨by simp [Instr.opcode], ?_⟩))
    cases h
    split_ifs
    · exact ⟨_, rfl⟩
    · exact ⟨s.pc, rfl⟩
  | jmp base => cases h; exact .inr (.inr (.inl ⟨by simp [Instr.opcode], _, rfl⟩))
  | st sr off => cases h; exact .inr (.inl (.inl ⟨sr, off, rfl, rfl⟩))
  | sti sr off => cases h; exact .inr (.inl (.inr (.inl ⟨sr, off, rfl, rfl⟩)))
  | str sr base off => cases h; exact .inr (.inl (.inr (.inr ⟨sr, base, off, rfl, rfl⟩)))
  | jsrr base => cases h; exact .inr (.inr (.inr (.inl ⟨rfl, _, rfl⟩)))
  | jsr off => cases h; exact .inr (.inr (.inr (.inl ⟨rfl, _, rfl⟩)))
  | rti ign =>
    cases h
    refine .inr (.inr (.inr (.inr (.inl ⟨by simp [Instr.opcode], ?_⟩))))
    cases hs : s.strict <;> simp [State.unimplemented, hs]
  | res ign =>
    cases h
    refine .inr (.inr (.inr (.inr (.inl ⟨by simp [Instr.opcode], ?_⟩))))
    cases hs : s.strict <;> simp [State.unimplemented, hs]
  | trap ign vect =>
    refine .inr (.inr (.inr (.inr (.inr ⟨ign, vect, rfl, ?_⟩))))
    simp only [exec, execTrap] at h
    split at h
    · next hv => cases h; exact .inl ⟨hv, rfl⟩
    · next svc hv => exact .inr ⟨svc, hv, h⟩
  | addReg dr sr1 sr2 => cases h; exact .inl ⟨by simp [Instr.opcode], _, _, rfl⟩
  | addImm dr sr1 imm => cases h; exact .inl ⟨by simp [Instr.opcode], _, _, rfl⟩
  | andReg dr sr1 sr2 => cases h; exact .inl ⟨by simp [Instr.opcode], _, _, rfl⟩
  | andImm dr sr1 imm => cases h; exact .inl ⟨by simp [Instr.opcode], _, _, rfl⟩
  | not dr sr1 => cases h; exact .inl ⟨by simp [Instr.opcode], _, _, rfl⟩
  | ld dr off => cases h; exact .inl ⟨by simp [Instr.opcode], _, _, rfl⟩
  | ldi dr off => cases h; exact .inl ⟨by simp [Instr.opcode], _, _, rfl⟩
  | ldr dr base off => cases h; exact .inl ⟨by simp [Instr.opcode], _, _, rfl⟩
  | lea dr off => cases h; exact .inl ⟨by simp [Instr.opcode], _, _, rfl⟩

/-- TRAP with a vector of the table performs its service (R120). -/
theorem exec_trap_of_vector {ign : BitVec 4} {vect : BitVec 8} {svc : Service}
    (h : Service.ofVector vect = some svc) (s : State) : exec (.trap ign vect) s = perform svc s := by
  simp only [exec, execTrap, h]

/-- A step of a core that fetches (R60). -/
theorem step_of_running {s : State} (hr : s.run = .running) (ho : s.outstanding = none) :
    step s = exec (decode s.fetchWord) s.advance := by
  simp [step, cycle, hr, ho, fetchExecute]

/-- A step of a core with an outstanding request (R132). -/
theorem step_of_outstanding {s : State} {svc : Service} (hr : s.run = .running)
    (ho : s.outstanding = some svc) : step s = perform svc s := by
  simp [step, cycle, hr, ho]

/-- Decoding one word gives an instruction of the slot its top four bits select (R56). -/
theorem opcode_decode (w : Word) : (decode w).opcode = Opcode.ofBits (opcodeField w) := by
  unfold decode
  split <;> (try split_ifs) <;> simp_all [Instr.opcode]

/-- An instruction that sets the flags writes its result to the register the word's DR field names
(10_state.md R16, 30_encoding.md R52). -/
theorem exec_decode_result {w : Word} {s t : State} (h : exec (decode w) s = .next t)
    (ho : (decode w).opcode ∈ [Opcode.add, .and, .not, .ld, .ldi, .ldr, .lea]) :
    ∃ v, t = s.writeResult (drField w) v := by
  rw [opcode_decode] at ho
  unfold decode at h
  split at h <;> simp_all only [List.mem_cons, List.not_mem_nil, or_false, reduceCtorEq] <;>
    (try split_ifs at h) <;> cases h <;> exact ⟨_, rfl⟩

end Sys2Proof.Machine
end

