-- ==== Sys2Proof/Tests/Slice0.lean ====
section
/-! SUPPORT. Tests: ill-formed terms, words written out from spec 30_encoding.md R51, single steps from the vectors of
spec 95_test_vectors.md, and a witness for the hypotheses of each statement. -/

namespace Sys2Proof.Tests

open Sys2Proof.Machine

/-! ### Ill-formed terms: one per check of `Instr.wf`, just outside the ranges of R53 -/

theorem test_wf_br : (Instr.br 7 256).wf = false ∧ (Instr.br 7 0xFEFF).wf = false := by decide
theorem test_wf_addImm : (Instr.addImm 0 0 16).wf = false ∧ (Instr.addImm 0 0 0xFFEF).wf = false := by decide
theorem test_wf_andImm : (Instr.andImm 0 0 16).wf = false ∧ (Instr.andImm 0 0 0xFFEF).wf = false := by decide
theorem test_wf_ld : (Instr.ld 0 256).wf = false ∧ (Instr.ld 0 0xFEFF).wf = false := by decide
theorem test_wf_ldi : (Instr.ldi 0 256).wf = false ∧ (Instr.ldi 0 0xFEFF).wf = false := by decide
theorem test_wf_lea : (Instr.lea 0 256).wf = false ∧ (Instr.lea 0 0xFEFF).wf = false := by decide
theorem test_wf_st : (Instr.st 0 256).wf = false ∧ (Instr.st 0 0xFEFF).wf = false := by decide
theorem test_wf_sti : (Instr.sti 0 256).wf = false ∧ (Instr.sti 0 0xFEFF).wf = false := by decide
theorem test_wf_jsr : (Instr.jsr 1024).wf = false ∧ (Instr.jsr 0xFBFF).wf = false := by decide
theorem test_wf_ldr : (Instr.ldr 0 0 32).wf = false ∧ (Instr.ldr 0 0 0xFFDF).wf = false := by decide
theorem test_wf_str : (Instr.str 0 0 32).wf = false ∧ (Instr.str 0 0 0xFFDF).wf = false := by decide

/-! ### Decoding: a word written out bit by bit from R51 for every constructor -/

theorem test_decode_br : decode 0b0000_010_000000011 = .br 0b010 3 := by decide
theorem test_decode_addReg : decode 0b0001_010_011_0_00_100 = .addReg 2 3 4 := by decide
theorem test_decode_addReg_ignored : decode 0b0001_001_001_0_11_000 = .addReg 1 1 0 := by decide
theorem test_decode_addImm : decode 0b0001_001_001_1_11111 = .addImm 1 1 0xFFFF := by decide
theorem test_decode_ld : decode 0b0010_001_000000010 = .ld 1 2 := by decide
theorem test_decode_st : decode 0b0011_001_111111111 = .st 1 0xFFFF := by decide
theorem test_decode_jsrr : decode 0b0100_0_11_111_111111 = .jsrr 7 := by decide
theorem test_decode_jsr : decode 0b0100_1_10000000000 = .jsr 0xFC00 := by decide
theorem test_decode_andReg : decode 0b0101_010_011_0_00_100 = .andReg 2 3 4 := by decide
theorem test_decode_andImm : decode 0b0101_001_010_1_10000 = .andImm 1 2 0xFFF0 := by decide
theorem test_decode_ldr : decode 0b0110_001_010_111111 = .ldr 1 2 0xFFFF := by decide
theorem test_decode_str : decode 0b0111_001_010_100000 = .str 1 2 0xFFE0 := by decide
theorem test_decode_rti : decode 0b1000_000100100011 = .rti 0x123 := by decide
theorem test_decode_not : decode 0b1001_001_010_111111 = .not 1 2 := by decide
theorem test_decode_ldi : decode 0b1010_001_000000010 = .ldi 1 2 := by decide
theorem test_decode_sti : decode 0b1011_001_000000010 = .sti 1 2 := by decide
theorem test_decode_jmp : decode 0b1100_111_010_011111 = .jmp 2 := by decide
theorem test_decode_res : decode 0b1101_101010111100 = .res 0xABC := by decide
theorem test_decode_lea : decode 0b1110_000_011111111 = .lea 0 255 := by decide
theorem test_decode_trap : decode 0b1111_0001_00100101 = .trap 1 0x25 := by decide
/-- The aliases of R63 are words of core instructions: RET, NOP, HALT. -/
theorem test_decode_aliases :
    decode 0xC1C0 = .jmp 7 ∧ decode 0x0000 = .br 0 0 ∧ decode 0xF025 = .trap 0 0x25 := by decide
theorem test_decodeTableWord : decodeTableWord 16 0x14C4 = some (.addReg 2 3 4) := by decide

/-! ### Single steps, from the vectors L2-3 to L2-11 -/

/-- The reset state with a word at `START`. -/
def ready (w : Word) : State := placeNextWord State.reset w

/-- The state a step answers, if it answers one. -/
def stepTo (s : State) : Option State :=
  match step s with
  | .next t => some t
  | .fault _ => none
  | .refused _ => none

theorem test_add_overflow_silent :
    (stepTo (((ready 0x14C4).setReg 3 0x7FFF).setReg 4 0x0001)).map (fun t => (t.reg 2, t.cond)) =
      some (0x8000, 0x0004) := by decide
theorem test_add_source_is_destination :
    (stepTo ((ready 0x1241).setReg 1 0x4000)).map (fun t => (t.reg 1, t.cond, t.pc)) =
      some (0x8000, 0x0004, 0x3001) := by decide
theorem test_addImm_minus_16 :
    (stepTo ((ready 0x12B0).setReg 2 0x0010)).map (fun t => (t.reg 1, t.cond)) =
      some (0x0000, 0x0002) := by decide
theorem test_andReg :
    (stepTo (((ready 0x54C4).setReg 3 0xFF0F).setReg 4 0x0FF0)).map (fun t => (t.reg 2, t.cond)) =
      some (0x0F00, 0x0001) := by decide
theorem test_andImm_mask :
    (stepTo ((ready 0x52B0).setReg 2 0xABCD)).map (fun t => (t.reg 1, t.cond)) =
      some (0xABC0, 0x0004) := by decide
theorem test_not : (stepTo ((ready 0x96FF).setReg 3 0x1234)).map (fun t => (t.reg 3, t.cond)) =
    some (0xEDCB, 0x0004) := by decide
theorem test_brz_taken : (stepTo (ready 0x0403)).map (·.pc) = some 0x3004 := by decide
theorem test_brz_not_taken : (stepTo ((ready 0x0403).setCond 0x0001)).map (·.pc) = some 0x3001 := by
  decide
theorem test_jmp : (stepTo ((ready 0xCE9F).setReg 2 0x4000)).map (·.pc) = some 0x4000 := by decide
theorem test_jsr : (stepTo (ready 0x4C00)).map (fun t => (t.reg 7, t.pc, t.cond)) =
    some (0x3001, 0x2C01, 0x0002) := by decide
theorem test_jsrr_r7_falls_through :
    (stepTo ((ready 0x41C0).setReg 7 0x5000)).map (fun t => (t.reg 7, t.pc)) =
      some (0x3001, 0x3001) := by decide
theorem test_ld_own_word : (stepTo (ready 0x23FF)).map (fun t => (t.reg 1, t.cond)) =
    some (0x23FF, 0x0001) := by decide
theorem test_ldi_flags_of_final_word :
    (stepTo ((ready 0xA202).writeMem 0x3003 0x4000)).map (fun t => (t.reg 1, t.cond)) =
      some (0x0000, 0x0002) := by decide
theorem test_ldr_wraps :
    (stepTo ((ready 0x62BF).writeMem 0xFFFF 0xFFFE)).map (fun t => (t.reg 1, t.cond)) =
      some (0xFFFE, 0x0004) := by decide
theorem test_ldr_base_read_first :
    (stepTo (((ready 0x6240).setReg 1 0x4000).writeMem 0x4000 0x4004)).map (·.reg 1) =
      some 0x4004 := by decide
theorem test_lea : (stepTo (ready 0xE1FF)).map (fun t => (t.reg 0, t.cond)) =
    some (0x3000, 0x0001) := by decide
theorem test_st : (stepTo ((ready 0x3202).setReg 1 0xBEEF)).map (·.readMem 0x3003) =
    some 0xBEEF := by decide
theorem test_sti_pointer_cell_kept :
    (stepTo (((ready 0xB202).setReg 1 0x1234).writeMem 0x3003 0x4000)).map
      (fun t => (t.readMem 0x4000, t.readMem 0x3003)) = some (0x1234, 0x4000) := by decide
theorem test_str_wraps :
    (stepTo (((ready 0x72A0).setReg 1 0x0001).setReg 2 0x0010)).map (·.readMem 0xFFF0) =
      some 0x0001 := by decide
theorem test_store_of_zero_removes_the_cell :
    (stepTo ((ready 0x33FF).setReg 1 0)).map (·.mem) = some [] := by decide
theorem test_getc : (stepTo ((ready 0xF020).setInp [0x41, 0x7A])).map
    (fun t => (t.reg 0, t.inp, t.out)) = some (0x0041, [0x7A], []) := by decide
theorem test_getc_blocks : (stepTo (ready 0xF020)).map (fun t => (t.pc, t.run, t.outstanding)) =
    some (0x3001, .running, some .getc) := by decide
theorem test_out : (stepTo ((ready 0xF021).setReg 0 0x1241)).map (·.out) = some [0x41] := by decide
theorem test_puts_high_byte_is_no_terminator :
    (stepTo ((((ready 0xF022).setReg 0 0x4000).writeMem 0x4000 0x0100).writeMem 0x4001 0x0042)).map
      (·.out) = some [0x00, 0x42] := by decide
theorem test_puts_wraps :
    (stepTo (((ready 0xF022).setReg 0 0xFFFF).writeMem 0xFFFF 0x0141)).map (·.out) =
      some [0x41] := by decide
theorem test_in : (stepTo ((ready 0xF023).setInp [0x7A])).map (fun t => (t.reg 0, t.out)) =
    some (0x007A, [0x7A]) := by decide
theorem test_reserved_strict :
    (stepTo { ready 0xF024 with strict := true }).map (fun t => (t.run, t.pc)) =
      some (.running, 0x3001) := by decide
theorem test_halt : (stepTo (ready 0xFF25)).map (fun t => (t.run, t.pc)) =
    some (.halted, 0x3001) := by decide
theorem test_inu16_leading_space_and_largest :
    (stepTo ((ready 0xF026).setInp [0x20, 0x20, 0x36, 0x35, 0x35, 0x33, 0x35])).map
      (fun t => (t.reg 0, t.inp)) = some (0xFFFF, []) := by decide
theorem test_inu16_leaves_next_byte :
    (stepTo ((ready 0xF026).setInp [0x0A, 0x34, 0x0A])).map (fun t => (t.reg 0, t.inp)) =
      some (0x0004, [0x0A]) := by decide
theorem test_outu16 : (stepTo ((ready 0xF027).setReg 0 0x8000)).map (·.out) =
    some [0x33, 0x32, 0x37, 0x36, 0x38, 0x0A] := by decide
theorem test_outu16_zero : (stepTo (ready 0xF027)).map (·.out) = some [0x30, 0x0A] := by decide
theorem test_invalid_trap : (stepTo (ready 0xF029)).map (fun t => (t.run, t.err, t.errinfo, t.pc)) =
    some (.faulted, .invalidTrap, 0xF029, 0x3001) := by decide
theorem test_invalid_trap_below : (stepTo (ready 0xF01F)).map (fun t => (t.run, t.err.code)) =
    some (.faulted, 1) := by decide
theorem test_rti_no_op : (stepTo (ready 0x8FFF)).map (fun t => (t.run, t.pc)) =
    some (.running, 0x3001) := by decide
theorem test_res_strict :
    (stepTo { ready 0xDABC with strict := true }).map (fun t => (t.run, t.err.code, t.errinfo)) =
      some (.faulted, 2, 0xDABC) := by decide
/-- L2-10: the pc wraps. -/
theorem test_pc_wraps :
    (stepTo (placeNextWord (State.reset.setPc 0xFFFF) 0x1021)).map (fun t => (t.reg 0, t.pc)) =
      some (0x0001, 0x0000) := by decide
/-- L2-11: the loader. -/
theorem test_loader_little_and_odd :
    Memory.loadBytes [] (Launch.mk 0x3000 0 false .little []) [0x26, 0xF0, 0x40] =
      [(0x3000, 0xF026)] := by decide
theorem test_loader_big :
    Memory.loadBytes [] (Launch.mk 0x3000 0 false .big []) [0x26, 0xF0, 0x40, 0x12] =
      [(0x3000, 0x26F0), (0x3001, 0x4012)] := by decide
theorem test_loader_truncates :
    Memory.loadBytes [] (Launch.mk 0xFFFE 0 false .little []) [0x21, 0x10, 0x21, 0x10, 0x25, 0xF0] =
      [(0xFFFE, 0x1021), (0xFFFF, 0x1021)] := by decide
theorem test_boot_without_file : boot (Launch.mk 0x3000 0 false .little []) none = none := by decide

/-! ### Witnesses: concrete values that meet the hypotheses of each statement -/

theorem witness_EncodeThenDecodeGivesInstruction :
    (Instr.addImm 1 1 0xFFF0).wf = true ∧ (Instr.ldr 1 1 31).wf = true ∧
      (Instr.br 7 0xFF00).wf = true ∧ (Instr.jsr 1023).wf = true := by decide
theorem witness_IgnoredBitsMakeNoDifference :
    (0x20 ≤ (0x20#8).toNat ∧ (0x20#8).toNat ≤ 0x27) ∧ (0x20 ≤ (0x27#8).toNat ∧ (0x27#8).toNat ≤ 0x27) ∧
      State.reset.strict = false := by decide
theorem witness_SignExtensionKeepsSignedValue : 5 ∈ [5, 6, 9, 11] ∧ 11 ∈ [5, 6, 9, 11] := by decide
theorem witness_RegisterAndImmediateModesAgree :
    (State.reset.setReg 2 0xFFF0).reg 2 = sext (0b10000#5) := by decide
theorem witness_BranchTakenExactlyOnMask :
    CondLegal State.reset ∧ CondLegal (State.reset.setCond 4) ∧ CondLegal (State.reset.setCond 1) := by
  decide
theorem witness_BranchSpecialMasks_never :
    (ready 0x00FF).run = .running ∧ (ready 0x00FF).outstanding = none ∧
      (ready 0x00FF).fetchWord = 0b0000#4 ++ 0b000#3 ++ 0x0FF#9 := by decide
theorem witness_BranchSpecialMasks_always :
    CondLegal (ready 0x0F00) ∧ (ready 0x0F00).fetchWord = 0b0000#4 ++ 0b111#3 ++ 0x100#9 := by decide
theorem witness_BranchSpecialMasks_zero_offset_and_self :
    (ready 0x0400).fetchWord = 0b0000#4 ++ 0b010#3 ++ 0#9 ∧
      CondLegal (ready 0x0FFF) ∧ (ready 0x0FFF).fetchWord = 0x0FFF := by decide
/-- Offset -1 with each single flag of the mask, and with two flags of which one is set. -/
theorem witness_BranchSpecialMasks_self_with_true_condition :
    (ready 0x05FF).run = .running ∧ (ready 0x05FF).outstanding = none ∧
      (ready 0x05FF).fetchWord = 0b0000#4 ++ 0b010#3 ++ 0x1FF#9 ∧
      (ready 0x05FF).cond &&& (0b010#3).setWidth 16 ≠ 0 ∧
      (ready 0x0DFF).fetchWord = 0b0000#4 ++ 0b110#3 ++ 0x1FF#9 ∧
      ((ready 0x0DFF).setCond 0x0004).cond &&& (0b110#3).setWidth 16 ≠ 0 := by decide
theorem witness_BranchSpecialMasks_top_of_memory :
    (placeNextWord (State.reset.setPc 0xFFFF) 0x0E00).run = .running ∧
      (placeNextWord (State.reset.setPc 0xFFFF) 0x0E00).outstanding = none ∧
      (placeNextWord (State.reset.setPc 0xFFFF) 0x0E00).pc = 0xFFFF ∧
      (placeNextWord (State.reset.setPc 0xFFFF) 0x0E00).fetchWord = 0b0000#4 ++ 0b111#3 ++ 0#9 ∧
      (placeNextWord (State.reset.setPc 0xFFFF) 0x0801).fetchWord = 0b0000#4 ++ 0b100#3 ++ 1#9 ∧
      State.reset.cond &&& (0b100#3).setWidth 16 = 0 := by decide
theorem witness_InvalidVectorFails :
    ((0x1F#8).toNat < 0x20 ∨ 0x27 < (0x1F#8).toNat) ∧
      ((0x28#8).toNat < 0x20 ∨ 0x27 < (0x28#8).toNat) := by decide
theorem witness_TrapFailsExactlyOutsideTable : State.reset.run = .running ∧
    exec (.trap 0 0x28) State.reset = .next (State.reset.raise .invalidTrap 0xF028) ∧
    exec (.trap 0 0x27) State.reset = .next (State.reset.emit [0x30, 0x0A]) := ⟨rfl, rfl, rfl⟩
theorem witness_GetcReadsOneByte : (State.reset.setInp [0xFF]).inp = 0xFF#8 :: [] := by decide
theorem witness_InReadsAndEchoesOneByte : (State.reset.setInp [0x00, 0x41]).inp = 0x00#8 :: [0x41] := by
  decide
/-- The string 0x0141, 0x0042 across the top of memory. -/
theorem witness_PutsEmitsString :
    ∃ s : State, ([0x0141, 0x0042] : List Word).length < 65536 ∧
      (∀ w ∈ ([0x0141, 0x0042] : List Word), w ≠ 0) ∧
      (∀ (k : Nat) (h : k < ([0x0141, 0x0042] : List Word).length),
        s.readMem (s.reg 0 + BitVec.ofNat 16 k) = ([0x0141, 0x0042] : List Word)[k]) ∧
      s.readMem (s.reg 0 + BitVec.ofNat 16 ([0x0141, 0x0042] : List Word).length) = 0 :=
  ⟨(((State.reset.setReg 0 0xFFFF).writeMem 0xFFFF 0x0141).writeMem 0x0000 0x0042), by decide, by simp,
    fun k h => match k, h with
      | 0, _ => rfl
      | 1, _ => rfl, rfl⟩
/-- A Word Store with 1 in every cell from address `k` on. -/
theorem lookup_ones (n k a : Nat) (h : k ≤ a ∧ a < k + n) :
    Memory.lookup ((List.range' k n).map fun i => (i, 1)) a = 1 := by
  induction n generalizing k with
  | zero => omega
  | succ n ih =>
    by_cases hk : k = a
    · simp [List.range'_succ, Memory.lookup, hk]
    · simpa [List.range'_succ, Memory.lookup, hk] using ih (k + 1) (by omega)
theorem witness_PutsWithoutTerminatorNeverCompletes :
    ∃ s : State, (∀ a, s.readMem a ≠ 0) ∧ s.run = .running ∧ s.outstanding = some .puts := by
  refine ⟨{ State.reset with
    mem := (List.range' 0 65536).map fun i => (i, 1)
    outstanding := some .puts }, fun a => ?_, rfl, rfl⟩
  have := a.isLt
  show Memory.lookup _ a.toNat ≠ 0
  rw [lookup_ones 65536 0 a.toNat (by omega)]
  decide
theorem witness_ReservedServiceChangesNothing : State.reset.outstanding = none := by decide
theorem witness_Inu16ReadsDecimal :
    (∀ b ∈ ([0x20, 0x0D] : List Byte), b ∈ ([0x20, 0x09, 0x0A, 0x0B, 0x0C, 0x0D] : List Byte)) ∧
    (∀ b ∈ ([0x36, 0x35, 0x35, 0x33, 0x35] : List Byte), 0x30 ≤ b.toNat ∧ b.toNat ≤ 0x39) ∧
    (∀ b ∈ ([0x3A] : List Byte).head?, ¬ (0x30 ≤ b.toNat ∧ b.toNat ≤ 0x39)) ∧
    (State.reset.setInp [0x20, 0x0D, 0x36, 0x35, 0x35, 0x33, 0x35, 0x3A]).inp =
      [0x20, 0x0D] ++ [0x36, 0x35, 0x35, 0x33, 0x35] ++ [0x3A] ∧
    ([0x36, 0x35, 0x35, 0x33, 0x35] : List Byte).foldl (fun n b => n * 10 + (b.toNat - 0x30)) 0 ≤ 65535 := by
  decide
theorem witness_Inu16RefusesMeaninglessInput_malformed :
    (State.reset.setInp [0x20, 0x2F]).inp = [0x20] ++ 0x2F#8 :: [] ∧
    (0x2F#8 ∉ ([0x20, 0x09, 0x0A, 0x0B, 0x0C, 0x0D] : List Byte)) ∧
    ¬ (0x30 ≤ (0x2F#8).toNat ∧ (0x2F#8).toNat ≤ 0x39) := by decide
theorem witness_Inu16RefusesMeaninglessInput_tooLarge :
    (State.reset.setInp [0x36, 0x35, 0x35, 0x33, 0x36]).inp =
      [] ++ [0x36, 0x35, 0x35, 0x33, 0x36] ++ [] ∧
    (∀ b ∈ ([0x36, 0x35, 0x35, 0x33, 0x36] : List Byte), 0x30 ≤ b.toNat ∧ b.toNat ≤ 0x39) ∧
    65535 < ([0x36, 0x35, 0x35, 0x33, 0x36] : List Byte).foldl (fun n b => n * 10 + (b.toNat - 0x30)) 0 := by
  decide
theorem witness_Inu16ReadsBackOutu16 : State.reset.out = [] ∧
    exec (.trap 0 0x27) State.reset = .next (State.reset.emit [0x30, 0x0A]) := ⟨rfl, rfl⟩
theorem witness_InputServicesBlockWithoutInput : State.reset.run = .running ∧ State.reset.inp = [] ∧
    ∀ b ∈ (State.reset.setInp [0x20, 0x0A]).inp,
      b ∈ ([0x20, 0x09, 0x0A, 0x0B, 0x0C, 0x0D] : List Byte) := by decide
theorem witness_BlockedCoreWaitsAndWakes :
    (State.reset.setOutstanding (some .getc)).run = .running ∧
      (State.reset.setOutstanding (some .getc)).outstanding = some .getc ∧
      (State.reset.setOutstanding (some .input)).outstanding = some .input ∧
      (State.reset.setOutstanding (some .inu16)).outstanding = some .inu16 ∧
      State.reset.inp = [] := by decide
theorem witness_TrapIsNoControlTransfer :
    exec (.trap 0 0x20) State.reset = .next (State.reset.setOutstanding (some .getc)) ∧
      exec (.trap 0 0x25) State.reset = .next State.reset.halt := ⟨rfl, rfl⟩
theorem witness_RtiIsNoOpOrFails_ResIsNoOpOrFails :
    State.reset.strict = false ∧
      (State.launch (Launch.mk 0x3000 0 true .little []) []).strict = true := by decide
theorem witness_StepRunsTheDecodedInstruction :
    (ready 0xE005).run = .running ∧ (ready 0xE005).outstanding = none ∧
      decode ((ready 0xE005).readMem (ready 0xE005).pc) = .lea 0 5 := by decide
theorem witness_EndedRunStaysAsItIs : State.reset.halt.run ≠ .running ∧
    (State.reset.raise .invalidTrap 0xF029).run ≠ .running := by decide
theorem witness_ProgramCounterAfterStep_StepKeepsInvariant :
    (ready 0x41C0).run = .running ∧ (ready 0x41C0).outstanding = none ∧ Inv (ready 0x41C0) ∧
      (stepTo (ready 0x41C0)).isSome = true := by decide
theorem witness_StoreIsSeenByTheNextFetch :
    (ready 0x3200).fetchWord = 0b0011#4 ++ regBits 1 ++ 0#9 ∧
      (ready 0x33FF).fetchWord = 0b0011#4 ++ regBits 1 ++ 0x1FF#9 := by decide
theorem witness_OnlyHaltServiceHalts : Inv (ready 0xF025) ∧ (ready 0xF025).run = .running ∧
    (stepTo (ready 0xF025)).map (·.run) = some .halted := by decide
theorem witness_OnlyFailuresFaultAndArePrecise_trap : Inv (ready 0xF828) ∧
    (ready 0xF828).run = .running ∧ (stepTo (ready 0xF828)).map (·.run) = some .faulted := by decide
theorem witness_OnlyFailuresFaultAndArePrecise_strict :
    Inv { ready 0x8001 with strict := true } ∧
      (stepTo { ready 0x8001 with strict := true }).map (·.run) = some .faulted := by decide
theorem witness_StreamsOnlyAdvanceAndStrapIsFixed :
    (stepTo ((ready 0xF023).setInp [0x41, 0x42])).map (fun t => (t.inp, t.out)) =
      some ([0x42], [0x41]) := by decide
theorem witness_OnlyStoresChangeMemory :
    (stepTo ((ready 0x3202).setReg 1 1)).map (fun t => decide (t.readMem 0x3003 ≠ 0)) = some true ∧
    (stepTo (((ready 0xB202).setReg 1 1).writeMem 0x3003 0x4000)).map
      (fun t => decide (t.readMem 0x4000 ≠ 0)) = some true ∧
    (stepTo (((ready 0x7280).setReg 1 1).setReg 2 0xFFFF)).map
      (fun t => decide (t.readMem 0xFFFF ≠ 0)) = some true := by
  decide
theorem witness_OnlySevenInstructionsChangeCond :
    (stepTo (ready 0xE005)).map (fun t => decide (t.cond ≠ (ready 0xE005).cond)) = some true := by
  decide
theorem witness_OnlyDecimalInputIsRefused :
    step ((ready 0xF026).setInp [0x41]) = .refused .decimalInputMalformed ∧
      step ((State.reset.setOutstanding (some .inu16)).setInp [0x41]) =
        .refused .decimalInputMalformed ∧
      (∀ ign, Instr.rti 0 ≠ .trap ign 0x26#8) := ⟨rfl, rfl, by decide⟩
theorem witness_ResetValuesOfTheRest :
    (State.launch (Launch.mk 0x3000 0 false .little []) [0xF025]).readMem 0x3000 = 0xF025 ∧
      (State.launch (Launch.mk 0x3000 0 false .little []) [0xF025]).readMem 0x2FFF = 0 ∧
      (State.launch (Launch.mk 0x3000 0 false .little []) [0xF025]).readMem 0x3001 = 0 ∧
      (State.launch (Launch.mk 0xFFFF 0 false .little []) [0x1021, 0xF025]).readMem 0xFFFF = 0x1021 ∧
      (State.launch (Launch.mk 0xFFFF 0 false .little []) [0x1021, 0xF025]).readMem 0x0000 = 0 := by
  decide

end Sys2Proof.Tests
end

/-! Sign extension by the two cases of the field's top bit (spec 00_scope.md R9). -/

namespace Sys2Proof

/-- The top bit of an `n`-bit field is set exactly when its unsigned value reaches `2 ^ (n - 1)`:
the case split of R9. -/
theorem msb_eq_true_iff_not_lt {n : Nat} (v : BitVec n) :
    v.msb = true ↔ ¬ v.toNat < 2 ^ (n - 1) := by
  rw [BitVec.msb_eq_decide, decide_eq_true_eq, Nat.not_lt]

/-- Sign extension as an unsigned number: a set top bit adds the weight of all bits from `n` up. -/
theorem toNat_sext {n : Nat} (v : BitVec n) (h16 : n ≤ 16) :
    (sext v).toNat =
      if v.toNat < 2 ^ (n - 1) then v.toNat else v.toNat + 65536 - 2 ^ n := by
  have hpow : 2 ^ n ≤ 2 ^ 16 := Nat.pow_le_pow_right (by decide) h16
  rw [sext, BitVec.toNat_signExtend, BitVec.toNat_setWidth_of_le h16]
  simp only [msb_eq_true_iff_not_lt, ite_not]
  split_ifs
  · exact Nat.add_zero _
  · exact (Nat.add_sub_assoc hpow _).symm

/-- Sign extension as a signed number: a set top bit makes the value `v - 2 ^ n`. -/
theorem toInt_sext_eq_ite {n : Nat} (v : BitVec n) (h16 : n ≤ 16) :
    (sext v).toInt =
      if v.toNat < 2 ^ (n - 1) then (v.toNat : Int) else (v.toNat : Int) - 2 ^ n := by
  rw [toInt_sext v h16, BitVec.toInt_eq_msb_cond]
  simp only [msb_eq_true_iff_not_lt, ite_not, Nat.cast_pow, Nat.cast_ofNat]

/-- Settles O6: each of the four widths fits into a word, where the two laws of `sext` hold. -/
theorem signExtensionKeepsSignedValue : Obligations.SignExtensionKeepsSignedValue := by
  intro n v hn
  have h16 : n ≤ 16 := (by decide : ∀ k ∈ [5, 6, 9, 11], k ≤ 16) n hn
  exact ⟨toNat_sext v h16, toInt_sext_eq_ite v h16⟩

end Sys2Proof

/-! The launched state and its start address (spec 10_state.md R21). -/

namespace Sys2Proof

/-- `START` as an unsigned number: the sum of R21 wraps at 65536. -/
theorem Launch.toNat_start (p : Launch) :
    p.start.toNat = (p.baseAddress.toNat + p.offset.toNat) % 65536 :=
  BitVec.toNat_add p.baseAddress p.offset

namespace Machine.State

@[simp] theorem launch_pc (p : Launch) (image : List Word) : (launch p image).pc = p.start := rfl

@[simp] theorem launch_run (p : Launch) (image : List Word) : (launch p image).run = .running := rfl

end Machine.State

open Machine in
/-- Settles O58: a launch puts `START` into `pc`, and the reset state is the launch of the defaults. -/
theorem resetStartsRunningAtStart : Obligations.ResetStartsRunningAtStart := by
  refine ⟨fun p image => ⟨?_, State.launch_run p image⟩, ?_, ?_⟩
  · rw [State.launch_pc, Launch.toNat_start]
  · rw [← launch_default_eq_reset, State.launch_pc]
    exact BitVec.add_zero 0x3000
  · rw [← launch_default_eq_reset, State.launch_run]

end Sys2Proof

/-! The word layout shared by ADD, AND and NOT: opcode, DR, SR1 and six low bits (spec 30_encoding.md
R51, R52), and what each of them decodes to. -/

namespace Sys2Proof

/-- A field equals `f` when the word, shifted and cut as R7 says, is the number of `f`. -/
theorem bits_eq_of_toNat {hi lo : Nat} {w : Word} {f : BitVec (hi - lo + 1)}
    (h : w.toNat / 2 ^ lo % 2 ^ (hi - lo + 1) = f.toNat) : bits hi lo w = f :=
  BitVec.eq_of_toNat_eq (by rw [toNat_bits, h])

/-- A register field names `r` when the word, shifted and cut, is the number of `r` (R52). -/
theorem regOfBits_bits_eq_of_toNat {hi lo : Nat} {w : Word} {r : Reg} (hw : hi - lo + 1 = 3)
    (h : w.toNat / 2 ^ lo % 8 = r.val) : regOfBits ((bits hi lo w).cast hw) = r :=
  Fin.ext (by rw [val_regOfBits, BitVec.toNat_cast, toNat_bits, hw]; exact h)

/-- The six low bits of format RRR (R51): mode 0, two ignored bits, SR2. -/
def rrrLow (ign : BitVec 2) (sr2 : Reg) : BitVec 6 := 0#1 ++ ign ++ regBits sr2

/-- The six low bits of format RRI (R51): mode 1, imm5. -/
def rriLow (imm5 : BitVec 5) : BitVec 6 := 1#1 ++ imm5

theorem toNat_rrrLow (ign : BitVec 2) (sr2 : Reg) :
    (rrrLow ign sr2).toNat = ign.toNat * 8 + sr2.val := by
  simp only [rrrLow, toNat_append_add, toNat_regBits, BitVec.toNat_ofNat]; omega

theorem toNat_rriLow (imm5 : BitVec 5) : (rriLow imm5).toNat = 32 + imm5.toNat := by
  simp only [rriLow, toNat_append_add, BitVec.toNat_ofNat]; omega

section
variable (op : BitVec 4) (dr sr1 sr2 : Reg) (low : BitVec 6) (ign : BitVec 2) (imm5 : BitVec 5)

/-- The layout as a number. -/
theorem toNat_aluWord :
    (op ++ regBits dr ++ regBits sr1 ++ low).toNat =
      op.toNat * 4096 + dr.val * 512 + sr1.val * 64 + low.toNat := by
  simp only [toNat_append_add, toNat_regBits]; omega

theorem rrrWord_eq :
    op ++ regBits dr ++ regBits sr1 ++ 0#1 ++ ign ++ regBits sr2 =
      op ++ regBits dr ++ regBits sr1 ++ rrrLow ign sr2 :=
  BitVec.eq_of_toNat_eq (by simp only [rrrLow, toNat_append_add]; omega)

theorem rriWord_eq :
    op ++ regBits dr ++ regBits sr1 ++ 1#1 ++ imm5 =
      op ++ regBits dr ++ regBits sr1 ++ rriLow imm5 :=
  BitVec.eq_of_toNat_eq (by simp only [rriLow, toNat_append_add]; omega)

@[simp] theorem opcodeField_aluWord :
    opcodeField (op ++ regBits dr ++ regBits sr1 ++ low) = op :=
  bits_eq_of_toNat (by rw [toNat_aluWord]; omega)

@[simp] theorem drField_aluWord :
    drField (op ++ regBits dr ++ regBits sr1 ++ low) = dr :=
  regOfBits_bits_eq_of_toNat rfl (by rw [toNat_aluWord]; omega)

@[simp] theorem sr1Field_aluWord :
    sr1Field (op ++ regBits dr ++ regBits sr1 ++ low) = sr1 :=
  regOfBits_bits_eq_of_toNat rfl (by rw [toNat_aluWord]; omega)

@[simp] theorem sr2Field_rrrWord :
    sr2Field (op ++ regBits dr ++ regBits sr1 ++ rrrLow ign sr2) = sr2 :=
  regOfBits_bits_eq_of_toNat rfl (by rw [toNat_aluWord, toNat_rrrLow]; omega)

@[simp] theorem imm5Field_rriWord :
    imm5Field (op ++ regBits dr ++ regBits sr1 ++ rriLow imm5) = imm5 :=
  bits_eq_of_toNat (by rw [toNat_aluWord, toNat_rriLow]; omega)

@[simp] theorem modeBit_rrrWord :
    modeBit (op ++ regBits dr ++ regBits sr1 ++ rrrLow ign sr2) = false := by
  rw [modeBit, bits_eq_of_toNat (f := 0#1)
    (by rw [toNat_aluWord, toNat_rrrLow, BitVec.toNat_ofNat]; omega)]
  rfl

@[simp] theorem modeBit_rriWord :
    modeBit (op ++ regBits dr ++ regBits sr1 ++ rriLow imm5) = true := by
  rw [modeBit, bits_eq_of_toNat (f := 1#1)
    (by rw [toNat_aluWord, toNat_rriLow, BitVec.toNat_ofNat]; omega)]
  rfl

end

/-- Slot 0001 is ADD, in the mode `instr[5]` selects (R54, R56). -/
theorem decode_add {w : Word} (h : opcodeField w = 0b0001#4) :
    decode w = if modeBit w then .addImm (drField w) (sr1Field w) (sext (imm5Field w))
      else .addReg (drField w) (sr1Field w) (sr2Field w) := by
  rw [decode, h]; rfl

/-- Slot 0101 is AND, in the mode `instr[5]` selects (R54, R56). -/
theorem decode_and {w : Word} (h : opcodeField w = 0b0101#4) :
    decode w = if modeBit w then .andImm (drField w) (sr1Field w) (sext (imm5Field w))
      else .andReg (drField w) (sr1Field w) (sr2Field w) := by
  rw [decode, h]; rfl

/-- Slot 1001 is NOT (R56). -/
theorem decode_not {w : Word} (h : opcodeField w = 0b1001#4) :
    decode w = .not (drField w) (sr1Field w) := by
  rw [decode, h]; rfl

/-- Every bit of a sign extension from the field's top bit up is the top bit (00_scope.md R9). -/
theorem getLsbD_sext_of_le {n k : Nat} (v : BitVec n) (hn : n ≤ k) (h16 : k < 16) :
    (sext v).getLsbD k = v.msb := by
  rw [sext, BitVec.getLsbD_signExtend, decide_eq_true h16, Bool.true_and,
    if_neg (Nat.not_lt.mpr hn)]

end Sys2Proof

/-! The arithmetic and logic instructions (spec 40_alu.md R80 to R86): encoding, result and frame. -/

namespace Sys2Proof

open Machine

/-- The sum modulo 65536 of R80 and R81 is the sum of the words. -/
theorem ofNat_sum_mod_eq_add (a b : Word) :
    BitVec.ofNat 16 ((a.toNat + b.toNat) % 65536) = a + b :=
  BitVec.eq_of_toNat_eq (by rw [BitVec.toNat_ofNat, BitVec.toNat_add, Nat.mod_mod])

section
variable (dr sr1 sr2 : Reg) (imm : Word) (s : State)

theorem exec_addReg :
    exec (.addReg dr sr1 sr2) s = .next (s.writeResult dr (s.reg sr1 + s.reg sr2)) := rfl

theorem exec_addImm :
    exec (.addImm dr sr1 imm) s = .next (s.writeResult dr (s.reg sr1 + imm)) := rfl

theorem exec_andReg :
    exec (.andReg dr sr1 sr2) s = .next (s.writeResult dr (s.reg sr1 &&& s.reg sr2)) := rfl

theorem exec_andImm :
    exec (.andImm dr sr1 imm) s = .next (s.writeResult dr (s.reg sr1 &&& imm)) := rfl

theorem exec_not :
    exec (.not dr sr1) s = .next (s.writeResult dr (~~~ s.reg sr1)) := rfl

end

/-- Settles O8: the word is of format RRR with opcode 0001, and `writeResult` writes the sum. -/
theorem addRegisterResultAndFrame : Obligations.AddRegisterResultAndFrame := by
  intro dr sr1 sr2 ign s
  refine ⟨?_, _, exec_addReg dr sr1 sr2 s, ?_⟩
  · rw [rrrWord_eq, decode_add (opcodeField_aluWord _ _ _ _)]
    simp
  · rw [ofNat_sum_mod_eq_add]
    exact writeResult_resultOnly s dr _

/-- Settles O9: the word is of format RRI with opcode 0001, and `writeResult` writes the sum. -/
theorem addImmediateResultAndFrame : Obligations.AddImmediateResultAndFrame := by
  intro dr sr1 imm5 s
  refine ⟨?_, _, exec_addImm dr sr1 (sext imm5) s, ?_⟩
  · rw [rriWord_eq, decode_add (opcodeField_aluWord _ _ _ _)]
    simp
  · rw [ofNat_sum_mod_eq_add]
    exact writeResult_resultOnly s dr _

/-- Settles O10: the word is of format RRR with opcode 0101, and `writeResult` writes the AND. -/
theorem andRegisterResultAndFrame : Obligations.AndRegisterResultAndFrame := by
  intro dr sr1 sr2 ign s
  refine ⟨?_, _, exec_andReg dr sr1 sr2 s, writeResult_resultOnly s dr _⟩
  rw [rrrWord_eq, decode_and (opcodeField_aluWord _ _ _ _)]
  simp

/-- Settles O11: the word is of format RRI with opcode 0101, the mask's high bits are copies of
imm5's top bit by sign extension, and `writeResult` writes the AND. -/
theorem andImmediateResultAndFrame : Obligations.AndImmediateResultAndFrame := by
  intro dr sr1 imm5 s
  refine ⟨?_, fun k hk h16 => ?_, _, exec_andImm dr sr1 (sext imm5) s,
    writeResult_resultOnly s dr _⟩
  · rw [rriWord_eq, decode_and (opcodeField_aluWord _ _ _ _)]
    simp
  · rw [getLsbD_sext_of_le imm5 hk h16]
    exact BitVec.msb_eq_getLsbD_last imm5

/-- Settles O12: NOT ignores the six low bits, and the complement is what is missing to all ones. -/
theorem notResultAndFrame : Obligations.NotResultAndFrame := by
  intro dr sr1 ign s
  refine ⟨?_, (BitVec.allOnes_sub_eq_not (s.reg sr1)).symm, _, exec_not dr sr1 s,
    writeResult_resultOnly s dr _⟩
  rw [decode_not (opcodeField_aluWord _ _ _ _)]
  simp

/-- Settles O13: both modes write the same result, that of the second operand's value. -/
theorem registerAndImmediateModesAgree : Obligations.RegisterAndImmediateModesAgree := by
  intro dr sr1 sr2 imm5 s h
  exact ⟨by rw [exec_addReg, exec_addImm, h], by rw [exec_andReg, exec_andImm, h]⟩

end Sys2Proof

/-! The word layouts of the control-flow instructions BR, JMP and JSR (spec 30_encoding.md R51,
R52), and what each of them decodes to. -/

namespace Sys2Proof

/-- Slot 0000 is BR (R56). -/
theorem decode_br {w : Word} (h : opcodeField w = 0b0000#4) :
    decode w = .br (nzpField w) (sext (pcOffset9Field w)) := by
  rw [decode, h]; rfl

/-- Slot 1100 is JMP (R56). -/
theorem decode_jmp {w : Word} (h : opcodeField w = 0b1100#4) : decode w = .jmp (sr1Field w) := by
  rw [decode, h]; rfl

/-- Slot 0100 with `long` set is JSR (R54, R56). -/
theorem decode_jsr {w : Word} (h : opcodeField w = 0b0100#4) (hl : longBit w = true) :
    decode w = .jsr (sext (pcOffset11Field w)) := by
  rw [decode, h]
  exact if_pos hl

/-- Format BRF as a number: opcode 0, the mask, PCoffset9. -/
theorem toNat_brWord (nzp : BitVec 3) (off9 : BitVec 9) :
    (0b0000#4 ++ nzp ++ off9).toNat = nzp.toNat * 512 + off9.toNat := by
  simp only [toNat_append_add, BitVec.toNat_ofNat]; omega

/-- Every word of format BRF decodes to the branch with its mask and its extended offset. -/
theorem decode_brWord (nzp : BitVec 3) (off9 : BitVec 9) :
    decode (0b0000#4 ++ nzp ++ off9) = .br nzp (sext off9) := by
  have hop : opcodeField (0b0000#4 ++ nzp ++ off9) = 0b0000#4 :=
    bits_eq_of_toNat (by rw [toNat_brWord, BitVec.toNat_ofNat]; omega)
  have hnzp : nzpField (0b0000#4 ++ nzp ++ off9) = nzp :=
    bits_eq_of_toNat (by rw [toNat_brWord]; omega)
  have hoff : pcOffset9Field (0b0000#4 ++ nzp ++ off9) = off9 :=
    bits_eq_of_toNat (by rw [toNat_brWord]; omega)
  rw [decode_br hop, hnzp, hoff]

/-- JMP reads its base where ADD reads SR1; the bits on both sides of it are ignored. -/
theorem decode_jmpWord (base : Reg) (ign₁ : BitVec 3) (ign₂ : BitVec 6) :
    decode (0b1100#4 ++ ign₁ ++ regBits base ++ ign₂) = .jmp base := by
  rw [← regBits_regOfBits ign₁, decode_jmp (opcodeField_aluWord _ _ _ _), sr1Field_aluWord]

/-- The long format of slot 0100 as a number: the opcode, bit 11, PCoffset11. -/
theorem toNat_jsrWord (off11 : BitVec 11) :
    (0b0100#4 ++ 1#1 ++ off11).toNat = 0x4800 + off11.toNat := by
  simp only [toNat_append_add, BitVec.toNat_ofNat]; omega

/-- Every word with the long-jump flag decodes to JSR with its extended offset. -/
theorem decode_jsrWord (off11 : BitVec 11) :
    decode (0b0100#4 ++ 1#1 ++ off11) = .jsr (sext off11) := by
  have hop : opcodeField (0b0100#4 ++ 1#1 ++ off11) = 0b0100#4 :=
    bits_eq_of_toNat (by rw [toNat_jsrWord, BitVec.toNat_ofNat]; omega)
  have hbit : bits 11 11 (0b0100#4 ++ 1#1 ++ off11) = 1#1 :=
    bits_eq_of_toNat (by rw [toNat_jsrWord, BitVec.toNat_ofNat]; omega)
  have hlong : longBit (0b0100#4 ++ 1#1 ++ off11) = true := by rw [longBit, hbit]; rfl
  have hoff : pcOffset11Field (0b0100#4 ++ 1#1 ++ off11) = off11 :=
    bits_eq_of_toNat (by rw [toNat_jsrWord]; omega)
  rw [decode_jsr hop hlong, hoff]

end Sys2Proof

/-! The branch: its test in terms of the three flags, and what executing it answers (spec
41_control.md R90). -/

namespace Sys2Proof

open Machine

/-- Against one flag the mask test looks at the mask bit of that flag (R90). -/
theorem condN_and_mask_ne_zero_iff :
    ∀ nzp : BitVec 3, condN &&& nzp.setWidth 16 ≠ 0 ↔ nzp[2] = true := by decide

theorem condZ_and_mask_ne_zero_iff :
    ∀ nzp : BitVec 3, condZ &&& nzp.setWidth 16 ≠ 0 ↔ nzp[1] = true := by decide

theorem condP_and_mask_ne_zero_iff :
    ∀ nzp : BitVec 3, condP &&& nzp.setWidth 16 ≠ 0 ↔ nzp[0] = true := by decide

/-- With a legal `COND` the mask test is the three-flag condition of R90. -/
theorem cond_and_mask_ne_zero_iff {s : State} (hc : CondLegal s) (nzp : BitVec 3) :
    s.cond &&& nzp.setWidth 16 ≠ 0 ↔
      (nzp[2] = true ∧ s.cond = 0x0004) ∨ (nzp[1] = true ∧ s.cond = 0x0002) ∨
        (nzp[0] = true ∧ s.cond = 0x0001) := by
  obtain hN | hZ | hP := hc
  · rw [hN, condN_and_mask_ne_zero_iff]; simp [condN]
  · rw [hZ, condZ_and_mask_ne_zero_iff]; simp [condZ]
  · rw [hP, condP_and_mask_ne_zero_iff]; simp [condP]

/-- Mask 111 covers whichever flag a legal `COND` holds (R91). -/
theorem cond_and_mask_all_ne_zero {s : State} (hc : CondLegal s) :
    s.cond &&& (0b111#3).setWidth 16 ≠ 0 :=
  (cond_and_mask_ne_zero_iff hc _).2 (hc.imp (⟨rfl, ·⟩) (.imp (⟨rfl, ·⟩) (⟨rfl, ·⟩)))

section
variable {nzp : BitVec 3} {s : State} (off : Word)

theorem exec_br_of_taken (h : s.cond &&& nzp.setWidth 16 ≠ 0) :
    exec (.br nzp off) s = .next (s.setPc (s.pc + off)) :=
  congrArg Host.Outcome.next (if_pos (bne_iff_ne.2 h))

theorem exec_br_of_not_taken (h : s.cond &&& nzp.setWidth 16 = 0) :
    exec (.br nzp off) s = .next s :=
  congrArg Host.Outcome.next (if_neg fun ht => bne_iff_ne.1 ht h)

end

/-- Settles O15: format BRF decodes to BR, the test splits along the flag a legal `COND` holds, and
both branches of `execBr` write at most `pc`. -/
theorem branchTakenExactlyOnMask : Obligations.BranchTakenExactlyOnMask := by
  intro nzp off9 s
  refine ⟨decode_brWord nzp off9, fun hc => cond_and_mask_ne_zero_iff hc nzp, ?_⟩
  split_ifs with h
  · exact ⟨_, exec_br_of_taken _ h, setPc_pcOnly s _⟩
  · exact ⟨_, exec_br_of_not_taken _ (not_not.1 h), self_pcOnly s⟩

end Sys2Proof

/-! Whole steps of a branch, and its special masks and offsets (spec 41_control.md R91). -/

namespace Sys2Proof

open Machine

section
variable {nzp : BitVec 3} {off9 : BitVec 9} {s : State} (hr : s.run = .running)
  (ho : s.outstanding = none) (hf : s.fetchWord = 0b0000#4 ++ nzp ++ off9)
include hr ho hf

/-- A step that fetches a BR executes it on the incremented `pc` (30_encoding.md R60). -/
theorem step_of_fetch_br : step s = exec (.br nzp (sext off9)) s.advance := by
  rw [step_of_running hr ho, hf, decode_brWord]

theorem step_br_of_taken (h : s.cond &&& nzp.setWidth 16 ≠ 0) :
    ∃ t, step s = .next t ∧ PcOnly (s.pc + 1 + sext off9) s t :=
  ⟨_, (step_of_fetch_br hr ho hf).trans (exec_br_of_taken _ h), setPc_pcOnly s _⟩

theorem step_br_of_not_taken (h : s.cond &&& nzp.setWidth 16 = 0) :
    ∃ t, step s = .next t ∧ PcOnly (s.pc + 1) s t :=
  ⟨_, (step_of_fetch_br hr ho hf).trans (exec_br_of_not_taken _ h), setPc_pcOnly s _⟩

end

section
variable {nzp : BitVec 3} {s : State} (hr : s.run = .running) (ho : s.outstanding = none)
include hr ho

/-- Offset 0 leads to the next word, taken or not. -/
theorem step_br_offset_zero (hf : s.fetchWord = 0b0000#4 ++ nzp ++ 0#9) :
    ∃ t, step s = .next t ∧ PcOnly (s.pc + 1) s t := by
  by_cases h : s.cond &&& nzp.setWidth 16 = 0
  · exact step_br_of_not_taken hr ho hf h
  · have hzero : s.pc + 1 + sext 0#9 = s.pc + 1 := BitVec.add_zero _
    exact hzero ▸ step_br_of_taken hr ho hf h

/-- Offset -1 undoes the increment of `pc`. -/
theorem step_br_offset_minus_one (hf : s.fetchWord = 0b0000#4 ++ nzp ++ 0x1FF#9)
    (h : s.cond &&& nzp.setWidth 16 ≠ 0) : ∃ t, step s = .next t ∧ PcOnly s.pc s t := by
  have hback : s.pc + 1 + sext 0x1FF#9 = s.pc := by
    rw [BitVec.add_assoc, show 1 + sext 0x1FF#9 = 0#16 by decide, BitVec.add_zero]
  have htaken := step_br_of_taken hr ho hf h
  rwa [hback] at htaken

end

/-- Settles O16: each clause is a taken or an untaken branch with its target sum worked out; 0x0FFF
is mask 111 with offset -1, and 0xFFFF + 1 wraps to 0. -/
theorem branchSpecialMasks : Obligations.BranchSpecialMasks := by
  intro off9 s hr ho
  refine ⟨fun hf => ?_, fun hc hf => ?_, fun nzp hf => ?_, fun nzp hf h => ?_, fun hc hf => ?_,
    fun hpc nzp hf h => ?_⟩
  · exact step_br_of_not_taken hr ho hf BitVec.and_zero
  · exact step_br_of_taken hr ho hf (cond_and_mask_all_ne_zero hc)
  · exact step_br_offset_zero hr ho hf
  · exact step_br_offset_minus_one hr ho hf h
  · exact step_br_offset_minus_one (nzp := 0b111#3) hr ho hf (cond_and_mask_all_ne_zero hc)
  · have hwrap : s.pc + 1 = 0x0000 := by rw [hpc]; rfl
    rw [← hwrap]
    obtain rfl | hnot := h
    · exact step_br_offset_zero hr ho hf
    · exact step_br_of_not_taken hr ho hf hnot

end Sys2Proof

/-! The register jump and the PC-relative call (spec 41_control.md R92, R93). -/

namespace Sys2Proof

open Machine

theorem exec_jmp (base : Reg) (s : State) : exec (.jmp base) s = .next (s.setPc (s.reg base)) := rfl

theorem exec_jsr (off : Word) (s : State) :
    exec (.jsr off) s = .next ((s.setReg linkReg s.pc).setPc (s.pc + off)) := rfl

/-- Settles O17: JMP ignores nine bits of its word and writes `pc` alone. -/
theorem jumpGoesToBaseRegister : Obligations.JumpGoesToBaseRegister := fun base ign₁ ign₂ s =>
  ⟨decode_jmpWord base ign₁ ign₂, _, exec_jmp base s, setPc_pcOnly s _⟩

/-- Settles O18: the link and the target are made of the same `pc`, and a call writes the link
register and `pc` alone. -/
theorem jsrLinksAndBranches : Obligations.JsrLinksAndBranches := fun off11 s =>
  ⟨decode_jsrWord off11, _, exec_jsr (sext off11) s, call_callOnly s _ _⟩

end Sys2Proof

/-! The word layouts of the loads, the stores and LEA (spec 30_encoding.md R51, formats PC9 and BO6),
and what each of them decodes to. -/

namespace Sys2Proof

section
variable (op : BitVec 4) (r base : Reg) (off9 : BitVec 9) (off6 : BitVec 6)

/-- Format PC9 as a number: the opcode, DR or SR, PCoffset9. -/
theorem toNat_pc9Word :
    (op ++ regBits r ++ off9).toNat = op.toNat * 4096 + r.val * 512 + off9.toNat := by
  simp only [toNat_append_add, toNat_regBits]; omega

theorem opcodeField_pc9Word : opcodeField (op ++ regBits r ++ off9) = op :=
  bits_eq_of_toNat (by rw [toNat_pc9Word]; omega)

theorem drField_pc9Word : drField (op ++ regBits r ++ off9) = r :=
  regOfBits_bits_eq_of_toNat rfl (by rw [toNat_pc9Word]; omega)

theorem pcOffset9Field_pc9Word : pcOffset9Field (op ++ regBits r ++ off9) = off9 :=
  bits_eq_of_toNat (by rw [toNat_pc9Word]; omega)

/-- Format BO6 has BaseR where ADD has SR1, and offset6 in all six low bits. -/
theorem offset6Field_aluWord : offset6Field (op ++ regBits r ++ regBits base ++ off6) = off6 :=
  bits_eq_of_toNat (by rw [toNat_aluWord]; omega)

end

section
variable {w : Word}

/-- Slot 0010 is LD (R56). -/
theorem decode_ld (h : opcodeField w = 0b0010#4) :
    decode w = .ld (drField w) (sext (pcOffset9Field w)) := by
  rw [decode, h]; rfl

/-- Slot 0011 is ST (R56). -/
theorem decode_st (h : opcodeField w = 0b0011#4) :
    decode w = .st (drField w) (sext (pcOffset9Field w)) := by
  rw [decode, h]; rfl

/-- Slot 1010 is LDI (R56). -/
theorem decode_ldi (h : opcodeField w = 0b1010#4) :
    decode w = .ldi (drField w) (sext (pcOffset9Field w)) := by
  rw [decode, h]; rfl

/-- Slot 1011 is STI (R56). -/
theorem decode_sti (h : opcodeField w = 0b1011#4) :
    decode w = .sti (drField w) (sext (pcOffset9Field w)) := by
  rw [decode, h]; rfl

/-- Slot 1110 is LEA (R56). -/
theorem decode_lea (h : opcodeField w = 0b1110#4) :
    decode w = .lea (drField w) (sext (pcOffset9Field w)) := by
  rw [decode, h]; rfl

/-- Slot 0110 is LDR (R56). -/
theorem decode_ldr (h : opcodeField w = 0b0110#4) :
    decode w = .ldr (drField w) (sr1Field w) (sext (offset6Field w)) := by
  rw [decode, h]; rfl

/-- Slot 0111 is STR (R56). -/
theorem decode_str (h : opcodeField w = 0b0111#4) :
    decode w = .str (drField w) (sr1Field w) (sext (offset6Field w)) := by
  rw [decode, h]; rfl

end

/-- A slot that reads its word as format PC9 decodes the layout to its register and extended offset. -/
theorem decode_pc9Word {op : BitVec 4} {mk : Reg → Word → Instr}
    (hslot : ∀ {w : Word}, opcodeField w = op → decode w = mk (drField w) (sext (pcOffset9Field w)))
    (r : Reg) (off9 : BitVec 9) : decode (op ++ regBits r ++ off9) = mk r (sext off9) := by
  rw [hslot (opcodeField_pc9Word op r off9), drField_pc9Word, pcOffset9Field_pc9Word]

/-- A slot that reads its word as format BO6 decodes the layout to its two registers and extended
offset. -/
theorem decode_bo6Word {op : BitVec 4} {mk : Reg → Reg → Word → Instr}
    (hslot : ∀ {w : Word}, opcodeField w = op →
      decode w = mk (drField w) (sr1Field w) (sext (offset6Field w)))
    (r base : Reg) (off6 : BitVec 6) :
    decode (op ++ regBits r ++ regBits base ++ off6) = mk r base (sext off6) := by
  rw [hslot (opcodeField_aluWord op r base off6), drField_aluWord, sr1Field_aluWord,
    offset6Field_aluWord]

end Sys2Proof

/-! The loads, the stores and LEA (spec 42_load_store.md R100 to R107): the address forms of R100 as
sums and reads, then encoding, result or stored cell, and frame of each instruction. -/

namespace Sys2Proof

open Machine

section
variable (r base : Reg) (off : Word) (s : State)

theorem pcRelative_eq : s.pcRelative off = s.pc + off := rfl

theorem indirect_eq : s.indirect off = s.readMem (s.pc + off) := rfl

theorem baseOffset_eq : s.baseOffset base off = s.reg base + off := rfl

theorem exec_ld :
    exec (.ld r off) s = .next (s.writeResult r (s.readMem (s.pcRelative off))) := rfl

theorem exec_ldi :
    exec (.ldi r off) s = .next (s.writeResult r (s.readMem (s.indirect off))) := rfl

theorem exec_ldr :
    exec (.ldr r base off) s = .next (s.writeResult r (s.readMem (s.baseOffset base off))) := rfl

theorem exec_lea : exec (.lea r off) s = .next (s.writeResult r (s.pcRelative off)) := rfl

theorem exec_st : exec (.st r off) s = .next (s.writeMem (s.pcRelative off) (s.reg r)) := rfl

theorem exec_sti : exec (.sti r off) s = .next (s.writeMem (s.indirect off) (s.reg r)) := rfl

theorem exec_str :
    exec (.str r base off) s = .next (s.writeMem (s.baseOffset base off) (s.reg r)) := rfl

end

/-- Settles O20: format PC9 with opcode 0010, and `writeResult` writes the word at the PC-relative
address. -/
theorem ldLoadsPcRelative : Obligations.LdLoadsPcRelative := by
  intro dr off9 s
  refine ⟨decode_pc9Word decode_ld dr off9, _, exec_ld dr (sext off9) s, ?_⟩
  rw [pcRelative_eq]
  exact writeResult_resultOnly s dr _

/-- Settles O21: format PC9 with opcode 1010, and `writeResult` writes the word the pointer names, so
the flags are those of that word. -/
theorem ldiLoadsThroughPointer : Obligations.LdiLoadsThroughPointer := by
  intro dr off9 s
  refine ⟨decode_pc9Word decode_ldi dr off9, _, exec_ldi dr (sext off9) s, ?_⟩
  rw [indirect_eq]
  exact writeResult_resultOnly s dr _

/-- Settles O22: format BO6 with opcode 0110, and the address is formed in the state before
`writeResult`, so DR = BaseR needs no case of its own. -/
theorem ldrLoadsBaseOffset : Obligations.LdrLoadsBaseOffset := by
  intro dr base off6 s
  refine ⟨decode_bo6Word decode_ldr dr base off6, _, exec_ldr dr base (sext off6) s, ?_⟩
  rw [baseOffset_eq]
  exact writeResult_resultOnly s dr _

/-- Settles O23: format PC9 with opcode 1110, and `writeResult` writes the address itself. -/
theorem leaGivesAddressAndFlags : Obligations.LeaGivesAddressAndFlags := by
  intro dr off9 s
  refine ⟨decode_pc9Word decode_lea dr off9, _, exec_lea dr (sext off9) s, ?_⟩
  rw [pcRelative_eq]
  exact writeResult_resultOnly s dr _

/-- Settles O24: format PC9 with opcode 0011, and `writeMem` stores at the PC-relative address. -/
theorem stStoresPcRelative : Obligations.StStoresPcRelative := fun sr off9 s =>
  ⟨decode_pc9Word decode_st sr off9, pcRelative_eq (sext off9) s, _, exec_st sr (sext off9) s,
    writeMem_storeOnly s _ _⟩

/-- Settles O25: format PC9 with opcode 1011, and `writeMem` stores at the address the pointer held
before the store, also when the pointer names its own cell. -/
theorem stiStoresThroughPointer : Obligations.StiStoresThroughPointer := fun sr off9 s =>
  ⟨decode_pc9Word decode_sti sr off9, indirect_eq (sext off9) s, _, exec_sti sr (sext off9) s,
    writeMem_storeOnly s _ _⟩

/-- Settles O26: format BO6 with opcode 0111, and `writeMem` stores at the base + offset address. -/
theorem strStoresBaseOffset : Obligations.StrStoresBaseOffset := fun sr base off6 s =>
  ⟨decode_bo6Word decode_str sr base off6, baseOffset_eq base (sext off6) s, _,
    exec_str sr base (sext off6) s, writeMem_storeOnly s _ _⟩

end Sys2Proof

/-! The two unimplemented opcodes, RTI and RES (spec 43_trap_and_reserved.md R135, R136): the word
layout of opcode and twelve ignored bits, and the no-op or failure by the strap. -/

namespace Sys2Proof

open Machine

section
variable (op : BitVec 4) (ign : BitVec 12)

theorem opcodeField_op_append : opcodeField (op ++ ign) = op :=
  bits_eq_of_toNat (by rw [toNat_append_add]; omega)

theorem ignoredBits_op_append : bits 11 0 (op ++ ign) = ign :=
  bits_eq_of_toNat (by rw [toNat_append_add]; omega)

end

/-- Slot 1000 is RTI, which keeps its ignored bits (R55, R56). -/
theorem decode_rti {w : Word} (h : opcodeField w = 0b1000#4) : decode w = .rti (bits 11 0 w) := by
  rw [decode, h]; rfl

/-- Slot 1101 is RES, which keeps its ignored bits (R55, R56). -/
theorem decode_res {w : Word} (h : opcodeField w = 0b1101#4) : decode w = .res (bits 11 0 w) := by
  rw [decode, h]; rfl

/-- A slot that keeps its twelve low bits decodes the layout to them. -/
theorem decode_op_append {op : BitVec 4} {mk : BitVec 12 → Instr}
    (hslot : ∀ {w : Word}, opcodeField w = op → decode w = mk (bits 11 0 w)) (ign : BitVec 12) :
    decode (op ++ ign) = mk ign := by
  rw [hslot (opcodeField_op_append op ign), ignoredBits_op_append]

theorem exec_rti (ign : BitVec 12) (s : State) :
    exec (.rti ign) s = .next (s.unimplemented (0b1000#4 ++ ign)) := rfl

theorem exec_res (ign : BitVec 12) (s : State) :
    exec (.res ign) s = .next (s.unimplemented (0b1101#4 ++ ign)) := rfl

theorem unimplemented_of_not_strict {s : State} (h : s.strict = false) (word : Word) :
    s.unimplemented word = s :=
  if_neg (Bool.eq_false_iff.mp h)

theorem unimplemented_of_strict {s : State} (h : s.strict = true) (word : Word) :
    s.unimplemented word = s.raise .unimplementedOpcode word :=
  if_pos h

/-- An instruction that answers `unimplemented` is a no-op or fails, as the strap says. -/
theorem noOp_or_failureOnly_of_unimplemented {i : Instr} {s : State} {word : Word}
    (h : exec i s = .next (s.unimplemented word)) :
    (s.strict = false → exec i s = .next s) ∧
    (s.strict = true → ∃ t, exec i s = .next t ∧ FailureOnly .unimplementedOpcode word s t) := by
  refine ⟨fun hs => ?_, fun hs => ⟨s.raise .unimplementedOpcode word, ?_, raise_failureOnly s _ _⟩⟩
  · rw [h, unimplemented_of_not_strict hs]
  · rw [h, unimplemented_of_strict hs]

/-- Settles O43: slot 1000 keeps the twelve low bits, so the failure records the whole word. -/
theorem rtiIsNoOpOrFails : Obligations.RtiIsNoOpOrFails := fun ign s =>
  ⟨decode_op_append decode_rti ign, noOp_or_failureOnly_of_unimplemented (exec_rti ign s)⟩

/-- Settles O44: as RTI, in slot 1101. -/
theorem resIsNoOpOrFails : Obligations.ResIsNoOpOrFails := fun ign s =>
  ⟨decode_op_append decode_res ign, noOp_or_failureOnly_of_unimplemented (exec_res ign s)⟩

end Sys2Proof

/-! The services OUT and the reserved one (spec 43_trap_and_reserved.md R125, R128), which complete
at their first attempt. -/

namespace Sys2Proof

open Machine

/-- A service that completes leaves no request outstanding (R132). -/
theorem perform_of_done {svc : Service} {s t : State} (h : attempt svc s = .done t) :
    perform svc s = .next (t.setOutstanding none) := by
  rw [perform, h]

/-- TRAP with a vector whose service completes (R120). -/
theorem exec_trap_of_done {vect : BitVec 8} {svc : Service} {s t : State}
    (hv : Service.ofVector vect = some svc) (h : attempt svc s = .done t) (ign : BitVec 4) :
    exec (.trap ign vect) s = .next (t.setOutstanding none) := by
  rw [exec_trap_of_vector hv, perform_of_done h]

theorem attempt_out (s : State) : attempt .out s = .done (s.emit [lowByte (s.reg 0)]) := rfl

theorem attempt_reserved (s : State) : attempt .reserved s = .done s := rfl

theorem lowByte_eq_extractLsb' (w : Word) : lowByte w = w.extractLsb' 0 8 :=
  BitVec.setWidth_eq_extractLsb' (by decide)

/-- Recording the outstanding request that is already recorded changes nothing. -/
theorem setOutstanding_eq_self {s : State} {o : Option Service} (h : s.outstanding = o) :
    s.setOutstanding o = s := by
  subst h; rfl

/-- Emitting bytes and recording a request touches nothing that R122 says a service keeps. -/
theorem emit_setOutstanding_serviceKeeps (s : State) (bs : List Byte) (o : Option Service) :
    ServiceKeeps [] s ((s.emit bs).setOutstanding o) :=
  ⟨fun _ _ => rfl, rfl, rfl, fun _ => rfl, rfl, rfl, rfl⟩

/-- Settles O30: OUT completes at once, with `emit` of one byte as its only effect. -/
theorem outEmitsLowByte : Obligations.OutEmitsLowByte := by
  intro ign s
  refine ⟨_, exec_trap_of_done ofVector_out (attempt_out s) ign, ?_, rfl, rfl, rfl,
    emit_setOutstanding_serviceKeeps s _ none⟩
  rw [State.setOutstanding_out, State.emit_out, lowByte_eq_extractLsb']

/-- Settles O34: the reserved service completes without touching the state, whatever the strap. -/
theorem reservedServiceChangesNothing : Obligations.ReservedServiceChangesNothing := by
  intro ign s ho
  rw [exec_trap_of_done ofVector_reserved (attempt_reserved s), setOutstanding_eq_self ho]

end Sys2Proof

/-! Decoding and encoding over the whole instruction set (spec 30_encoding.md R51 to R57): the slots
the earlier parts leave out, and that the decoder undoes the encoder. -/

namespace Sys2Proof

/-- Slot 0100 with `long` clear is JSRR (R54, R56). -/
theorem decode_jsrr {w : Word} (h : opcodeField w = 0b0100#4) (hl : longBit w = false) :
    decode w = .jsrr (sr1Field w) := by
  rw [decode, h]
  exact if_neg (Bool.eq_false_iff.mp hl)

/-- Slot 1111 is TRAP (R56). -/
theorem decode_trap {w : Word} (h : opcodeField w = 0b1111#4) :
    decode w = .trap (bits 11 8 w) (trapvect8Field w) := by
  rw [decode, h]; rfl

/-- JSRR's word as a number: it has BaseR where ADD has SR1. -/
theorem toNat_jsrrWord (base : Reg) (ign₁ : BitVec 2) (ign₂ : BitVec 6) :
    (0b0100#4 ++ 0#1 ++ ign₁ ++ regBits base ++ ign₂).toNat =
      0x4000 + ign₁.toNat * 512 + base.val * 64 + ign₂.toNat := by
  simp only [toNat_append_add, toNat_regBits, BitVec.toNat_ofNat]; omega

/-- Every word of slot 0100 with `long` clear decodes to JSRR with its base. -/
theorem decode_jsrrWord (base : Reg) (ign₁ : BitVec 2) (ign₂ : BitVec 6) :
    decode (0b0100#4 ++ 0#1 ++ ign₁ ++ regBits base ++ ign₂) = .jsrr base := by
  have hop : opcodeField (0b0100#4 ++ 0#1 ++ ign₁ ++ regBits base ++ ign₂) = 0b0100#4 :=
    bits_eq_of_toNat (by rw [toNat_jsrrWord, BitVec.toNat_ofNat]; omega)
  have hbit : bits 11 11 (0b0100#4 ++ 0#1 ++ ign₁ ++ regBits base ++ ign₂) = 0#1 :=
    bits_eq_of_toNat (by rw [toNat_jsrrWord, BitVec.toNat_ofNat]; omega)
  have hlong : longBit (0b0100#4 ++ 0#1 ++ ign₁ ++ regBits base ++ ign₂) = false := by
    rw [longBit, hbit]; rfl
  have hbase : sr1Field (0b0100#4 ++ 0#1 ++ ign₁ ++ regBits base ++ ign₂) = base :=
    regOfBits_bits_eq_of_toNat rfl (by rw [toNat_jsrrWord]; omega)
  rw [decode_jsrr hop hlong, hbase]

/-- TRAP's word as a number: the opcode, four ignored bits, trapvect8. -/
theorem toNat_trapWord (ign : BitVec 4) (vect : BitVec 8) :
    (0b1111#4 ++ ign ++ vect).toNat = 0xF000 + ign.toNat * 256 + vect.toNat := by
  simp only [toNat_append_add, BitVec.toNat_ofNat]; omega

/-- Every word of slot 1111 decodes to TRAP with its ignored bits and its vector. -/
theorem decode_trapWord (ign : BitVec 4) (vect : BitVec 8) :
    decode (0b1111#4 ++ ign ++ vect) = .trap ign vect := by
  have hop : opcodeField (0b1111#4 ++ ign ++ vect) = 0b1111#4 :=
    bits_eq_of_toNat (by rw [toNat_trapWord, BitVec.toNat_ofNat]; omega)
  have hign : bits 11 8 (0b1111#4 ++ ign ++ vect) = ign :=
    bits_eq_of_toNat (by rw [toNat_trapWord]; omega)
  have hvect : trapvect8Field (0b1111#4 ++ ign ++ vect) = vect :=
    bits_eq_of_toNat (by rw [toNat_trapWord]; omega)
  rw [decode_trap hop, hign, hvect]

section
variable {op : Opcode}

/-- Format PC9 of a slot that reads it, decoded: the register and the offset come back. -/
theorem decode_encodePc9 {mk : Reg → Word → Instr}
    (hslot : ∀ {w : Word}, opcodeField w = op.bits →
      decode w = mk (drField w) (sext (pcOffset9Field w)))
    (r : Reg) {off : Word} (hoff : fitsSigned 9 off = true) :
    decode (encodePc9 op r off) = mk r off := by
  rw [encodePc9, decode_pc9Word hslot, sext_setWidth off (by decide) (by decide) hoff]

/-- Format BO6 of a slot that reads it, decoded: both registers and the offset come back. -/
theorem decode_encodeBo6 {mk : Reg → Reg → Word → Instr}
    (hslot : ∀ {w : Word}, opcodeField w = op.bits →
      decode w = mk (drField w) (sr1Field w) (sext (offset6Field w)))
    (r base : Reg) {off : Word} (hoff : fitsSigned 6 off = true) :
    decode (encodeBo6 op r base off) = mk r base off := by
  rw [encodeBo6, decode_bo6Word hslot, sext_setWidth off (by decide) (by decide) hoff]

/-- The encoder's format RRR is the layout with both ignored bits clear. -/
theorem encodeRrr_eq (dr sr1 sr2 : Reg) :
    encodeRrr op dr sr1 sr2 = op.bits ++ regBits dr ++ regBits sr1 ++ rrrLow 0 sr2 :=
  BitVec.eq_of_toNat_eq (by rw [toNat_encodeRrr, toNat_aluWord, toNat_rrrLow]; simp)

/-- The encoder's format RRI is the layout with the low five bits of the immediate. -/
theorem encodeRri_eq (dr sr1 : Reg) (imm : Word) :
    encodeRri op dr sr1 imm = op.bits ++ regBits dr ++ regBits sr1 ++ rriLow (imm.setWidth 5) :=
  BitVec.eq_of_toNat_eq (by
    rw [toNat_encodeRri, toNat_aluWord, toNat_rriLow, BitVec.toNat_setWidth]; omega)

variable {mkReg : Reg → Reg → Reg → Instr} {mkImm : Reg → Reg → Word → Instr}
  (hslot : ∀ {w : Word}, opcodeField w = op.bits → decode w =
    if modeBit w then mkImm (drField w) (sr1Field w) (sext (imm5Field w))
    else mkReg (drField w) (sr1Field w) (sr2Field w))
include hslot

/-- Format RRR of a slot with two modes, decoded: mode 0 and the three registers come back. -/
theorem decode_encodeRrr (dr sr1 sr2 : Reg) :
    decode (encodeRrr op dr sr1 sr2) = mkReg dr sr1 sr2 := by
  rw [encodeRrr_eq, hslot (opcodeField_aluWord _ _ _ _)]
  simp

/-- Format RRI of a slot with two modes, decoded: mode 1 and the operands come back. -/
theorem decode_encodeRri (dr sr1 : Reg) {imm : Word} (himm : fitsSigned 5 imm = true) :
    decode (encodeRri op dr sr1 imm) = mkImm dr sr1 imm := by
  rw [encodeRri_eq, hslot (opcodeField_aluWord _ _ _ _)]
  simp [sext_setWidth imm _ _ himm]

end

/-- Settles O1: instruction by instruction, the encoder writes a layout whose decoding is known, and
an operand in its field's range is the sign extension of the bits kept of it. -/
theorem encodeThenDecodeGivesInstruction : Obligations.EncodeThenDecodeGivesInstruction := by
  intro i hi
  cases i with
  | br nzp off =>
    exact (decode_brWord nzp _).trans
      (congrArg (Instr.br nzp) (sext_setWidth off (by decide) (by decide) hi))
  | addReg dr sr1 sr2 => exact decode_encodeRrr decode_add dr sr1 sr2
  | addImm dr sr1 imm => exact decode_encodeRri decode_add dr sr1 hi
  | ld dr off => exact decode_encodePc9 decode_ld dr hi
  | st sr off => exact decode_encodePc9 decode_st sr hi
  | jsrr base => exact decode_jsrrWord base 0 0
  | jsr off =>
    exact (decode_jsrWord _).trans
      (congrArg Instr.jsr (sext_setWidth off (by decide) (by decide) hi))
  | andReg dr sr1 sr2 => exact decode_encodeRrr decode_and dr sr1 sr2
  | andImm dr sr1 imm => exact decode_encodeRri decode_and dr sr1 hi
  | ldr dr base off => exact decode_encodeBo6 decode_ldr dr base hi
  | str sr base off => exact decode_encodeBo6 decode_str sr base hi
  | rti ign => exact decode_op_append decode_rti ign
  | not dr sr1 => exact (notResultAndFrame dr sr1 _ .reset).1
  | ldi dr off => exact decode_encodePc9 decode_ldi dr hi
  | sti sr off => exact decode_encodePc9 decode_sti sr hi
  | jmp base => exact decode_jmpWord base 0 0
  | res ign => exact decode_op_append decode_res ign
  | lea dr off => exact decode_encodePc9 decode_lea dr hi
  | trap ign vect => exact decode_trapWord ign vect

end Sys2Proof

/-! What TRAP and a service may do to the state (spec 43_trap_and_reserved.md R120 to R123,
R132), in the terms every later claim about a step uses. -/

namespace Sys2Proof

open Machine

/-- The opcode field of a word is the opcode value of the instruction it decodes to (R56). -/
theorem opcodeField_eq_opcode_bits (w : Word) : opcodeField w = (decode w).opcode.bits := by
  rw [opcode_decode, Opcode.bits_ofBits]

/-- A word that decodes to TRAP has opcode 1111 and the instruction's vector. -/
theorem fields_of_decode_trap {w : Word} {ign : BitVec 4} {vect : BitVec 8}
    (h : decode w = .trap ign vect) :
    opcodeField w = 0b1111#4 ∧ trapvect8Field w = vect := by
  have hop : opcodeField w = 0b1111#4 := by rw [opcodeField_eq_opcode_bits, h]; rfl
  refine ⟨hop, ?_⟩
  rw [decode_trap hop, Instr.trap.injEq] at h
  exact h.2

/-- Everything TRAP can answer (R120): the failure of a vector outside the table, or what
its service answers. -/
theorem exec_trap_next {ign : BitVec 4} {vect : BitVec 8} {s t : State}
    (h : exec (.trap ign vect) s = .next t) :
    (Service.ofVector vect = none ∧ t = s.raise .invalidTrap (encode (.trap ign vect))) ∨
    ∃ svc, Service.ofVector vect = some svc ∧ perform svc s = .next t := by
  simp only [exec, execTrap] at h
  split at h
  · next hv => cases h; exact .inl ⟨hv, rfl⟩
  · next svc hv => exact .inr ⟨svc, hv, h⟩

/-- A performed service has the effect of one attempt, and records whether it is still outstanding:
only the three input services and PUTS can be (R132, R126). -/
theorem perform_effect {svc : Service} {s t : State} (h : perform svc s = .next t) :
    ∃ u, ServiceEffect svc s u ∧ (t = u.setOutstanding none ∨
      (t = u.setOutstanding (some svc) ∧
        (svc = .getc ∨ svc = .input ∨ svc = .inu16 ∨ svc = .puts))) := by
  obtain ⟨u, hu, rfl⟩ | ⟨u, hu, rfl⟩ := perform_next h
  · exact ⟨u, attempt_effect (by rw [hu]; rfl), .inl rfl⟩
  · exact ⟨u, attempt_effect (by rw [hu]; rfl), .inr ⟨rfl, attempt_waiting hu⟩⟩

section
variable {svc : Service} {s t : State} (h : perform svc s = .next t)
include h

theorem perform_keeps : ServiceKeeps [0] s t := by
  obtain ⟨u, hu, rfl | ⟨rfl, -⟩⟩ := perform_effect h <;> exact hu.keeps

theorem perform_mem : t.mem = s.mem := by
  obtain ⟨u, hu, rfl | ⟨rfl, -⟩⟩ := perform_effect h <;> exact hu.mem

theorem perform_streams : t.inp <:+ s.inp ∧ s.out <+: t.out := by
  obtain ⟨u, hu, rfl | ⟨rfl, -⟩⟩ := perform_effect h <;> exact ⟨hu.inp, hu.out⟩

/-- Only service HALT writes `RUN` (R129). -/
theorem perform_run : t.run = s.run ∨ (svc = .halt ∧ t.run = .halted) := by
  obtain ⟨u, hu, rfl | ⟨rfl, -⟩⟩ := perform_effect h <;> exact hu.run

/-- A service performed by a Running core never leaves it Faulted. -/
theorem perform_run_ne_faulted (hr : s.run = .running) : t.run ≠ .faulted := by
  obtain hrun | ⟨-, hrun⟩ := perform_run h
  · rw [hrun, hr]; decide
  · rw [hrun]; decide

/-- A request stays outstanding only in a Running core, and only of the four services that can fail
to complete. -/
theorem perform_outstandingLegal (hr : s.run = .running) : OutstandingLegal t := by
  obtain ⟨u, hu, rfl | ⟨rfl, hsvc⟩⟩ := perform_effect h
  · exact .inl rfl
  · have hrun : u.run = .running := by
      obtain hrun | ⟨rfl, -⟩ := hu.run
      · exact hrun.trans hr
      · simp at hsvc
    refine .inr ⟨hrun, ?_⟩
    obtain rfl | rfl | rfl | rfl := hsvc <;> simp

end

/-- Only vector 0x25 selects HALT (R121). -/
theorem ofVector_eq_some_halt :
    ∀ v : BitVec 8, Service.ofVector v = some .halt → v = 0x25#8 := by decide

/-- Only vector 0x26 selects INU16 (R121). -/
theorem ofVector_eq_some_inu16 :
    ∀ v : BitVec 8, Service.ofVector v = some .inu16 → v = 0x26#8 := by decide

end Sys2Proof

/-! The invariant (spec 10_state.md R17, R18; 60_exceptions.md R150, R153): every operation of the
state keeps it, and so every step does. -/

namespace Sys2Proof

open Machine

/-- `RUN` other than Faulted goes with no recorded failure. -/
theorem err_eq_noError {s : State} (h : StatusLegal s) (hr : s.run ≠ .faulted) :
    s.err = .noError := by
  by_contra he
  exact hr (h.1.2 he)

/-- A run that is not Faulted and has recorded no failure has a legal status. -/
theorem statusLegal_of_not_faulted {s : State} (hr : s.run ≠ .faulted) (he : s.err = .noError)
    (hi : s.errinfo = 0) : StatusLegal s := by
  refine ⟨⟨fun h => absurd h hr, fun h => absurd he h⟩, fun _ => hi, ?_, ?_⟩ <;> simp [he]

/-- The invariant speaks of neither `pc` nor the registers. -/
theorem inv_setPc {s : State} (h : Inv s) (p : Word) : Inv (s.setPc p) := h

theorem inv_setReg {s : State} (h : Inv s) (r : Reg) (v : Word) : Inv (s.setReg r v) := h

/-- A result's flag is one of the three (R16). -/
theorem inv_writeResult {s : State} (h : Inv s) (dr : Reg) (v : Word) :
    Inv (s.writeResult dr v) :=
  ⟨condOf_legal v, h.2⟩

theorem inv_writeMem {s : State} (h : Inv s) (a v : Word) : Inv (s.writeMem a v) :=
  ⟨h.1, Memory.write_wf h.2.1 a v, h.2.2⟩

/-- TRAP's failure: the recorded word is the TRAP itself, whose vector selects no service. -/
theorem inv_raise_invalidTrap {s : State} (h : Inv s) (ho : s.outstanding = none) {ign : BitVec 4}
    {vect : BitVec 8} (hv : Service.ofVector vect = none) :
    Inv (s.raise .invalidTrap (encode (.trap ign vect))) := by
  obtain ⟨hop, hvect⟩ := fields_of_decode_trap (decode_trapWord ign vect)
  refine ⟨h.1, h.2.1, ⟨by simp, by simp, fun _ => ⟨hop, ?_⟩, by simp⟩, .inl ho⟩
  exact (congrArg Service.ofVector hvect).trans hv

/-- The failure of an unimplemented opcode: the word recorded has that opcode, the strap is set. -/
theorem inv_raise_unimplementedOpcode {s : State} (h : Inv s) (ho : s.outstanding = none)
    (hs : s.strict = true) {word : Word}
    (hop : opcodeField word = 0b1000#4 ∨ opcodeField word = 0b1101#4) :
    Inv (s.raise .unimplementedOpcode word) :=
  ⟨h.1, h.2.1, ⟨by simp, by simp, by simp, fun _ => ⟨hs, hop⟩⟩, .inl ho⟩

/-- A service performed by a Running core keeps the invariant. -/
theorem inv_of_perform {svc : Service} {s t : State} (h : Inv s) (hr : s.run = .running)
    (ht : perform svc s = .next t) : Inv t := by
  obtain ⟨hcond, hmem, hstatus, -⟩ := h
  obtain ⟨-, -, hc, -, he, hi, -⟩ := perform_keeps ht
  have hnone : s.err = .noError := err_eq_noError hstatus (by rw [hr]; decide)
  refine ⟨by rwa [CondLegal, hc], by rwa [perform_mem ht], ?_, perform_outstandingLegal ht hr⟩
  exact statusLegal_of_not_faulted (perform_run_ne_faulted ht hr) (he.trans hnone)
    (hi.trans (hstatus.2.1 hnone))

/-- The opcode field of an encoded RTI or RES. -/
theorem opcodeField_encode_of_unimplemented {i : Instr} (h : i.opcode ∈ [Opcode.rti, .res]) :
    opcodeField (encode i) = 0b1000#4 ∨ opcodeField (encode i) = 0b1101#4 := by
  cases i with
  | rti ign => exact .inl (opcodeField_op_append _ ign)
  | res ign => exact .inr (opcodeField_op_append _ ign)
  | _ => simp [Instr.opcode] at h

/-- Executing an instruction on a Running core that is not blocked keeps the invariant. -/
theorem inv_of_exec {i : Instr} {s t : State} (h : Inv s) (hr : s.run = .running)
    (ho : s.outstanding = none) (ht : exec i s = .next t) : Inv t := by
  obtain ⟨-, dr, v, rfl⟩ | hstore | ⟨-, p, rfl⟩ | ⟨-, p, rfl⟩ | ⟨hop, hun⟩ |
    ⟨ign, vect, rfl, hsvc⟩ := exec_next ht
  · exact inv_writeResult h dr v
  · obtain ⟨sr, off, -, rfl⟩ | ⟨sr, off, -, rfl⟩ | ⟨sr, base, off, -, rfl⟩ := hstore <;>
      exact inv_writeMem h _ _
  · exact inv_setPc h p
  · exact inv_setPc (inv_setReg h _ _) p
  · obtain ⟨-, rfl⟩ | ⟨hs, rfl⟩ := hun
    · exact h
    · exact inv_raise_unimplementedOpcode h ho hs (opcodeField_encode_of_unimplemented hop)
  · obtain ⟨hv, rfl⟩ | ⟨svc, -, hp⟩ := hsvc
    · exact inv_raise_invalidTrap h ho hv
    · exact inv_of_perform h hr hp

/-- Settles O51: an ended core stays as it is, an outstanding service keeps the invariant, and so
does an instruction, whose fetch changes `pc` alone. -/
theorem stepKeepsInvariant : Obligations.StepKeepsInvariant := by
  intro s t h ht
  obtain ⟨-, rfl⟩ | ⟨hr, svc, -, hp⟩ | ⟨hr, ho, he⟩ := step_next ht
  · exact h
  · exact inv_of_perform h hr hp
  · exact inv_of_exec (s := s.advance) (inv_setPc h _) hr ho he

end Sys2Proof

/-! The decoder over all words (spec 30_encoding.md R53, R57): operand ranges, and the one row of
the opcode table a word is of. -/

namespace Sys2Proof

/-- Settles O2: slot by slot, each signed operand is a sign-extended field. -/
theorem decodedInstructionIsWellFormed : Obligations.DecodedInstructionIsWellFormed := by
  intro w
  cases hop : Opcode.ofBits (opcodeField w) with
  | br | ld | st | ldi | sti | lea | ldr | str =>
    simp only [decode, hop]
    exact fitsSigned_sext _ (by decide)
  | add | and | jsr =>
    simp only [decode, hop]
    split_ifs
    · exact fitsSigned_sext _ (by decide)
    · rfl
  | rti | not | jmp | res | trap => simp only [decode, hop, Instr.wf]

/-- The bits some row of the opcode table tests: the opcode, `long` and `mode` (R54, R56). -/
def rowMask : Word := 0xF820

/-- A word with the given opcode, `long` and `mode`, and every other bit clear. -/
def rowWord (op : BitVec 4) (long mode : BitVec 1) : Word := op ++ long ++ 0#5 ++ mode ++ 0#5

/-- What a row's mask keeps of a word is in the three fields. -/
theorem and_rowMask (w : Word) :
    w &&& rowMask = rowWord (opcodeField w) (bits 11 11 w) (bits 5 5 w) := by
  refine BitVec.eq_of_getLsbD_eq fun i hi => ?_
  simp only [rowMask, rowWord, opcodeField, bits, BitVec.getLsbD_append, BitVec.getLsbD_and,
    BitVec.getLsbD_extractLsb]
  interval_cases i <;> simp

/-- No row tests a bit outside `rowMask`. -/
theorem and_mask_of_mem_opcodeRows {r : Word × Word} (hr : r ∈ opcodeRows) (w : Word) :
    w &&& r.2 = w &&& rowMask &&& r.2 := by
  have hall : ∀ r ∈ opcodeRows, rowMask &&& r.2 = r.2 := by simp [opcodeRows, rowMask]
  rw [BitVec.and_assoc, hall r hr]

/-- The row of a word's instruction depends on the three fields alone. -/
theorem row_decode_congr {w v : Word} (hop : opcodeField w = opcodeField v)
    (hlong : bits 11 11 w = bits 11 11 v) (hmode : bits 5 5 w = bits 5 5 v) :
    (decode w).row = (decode v).row := by
  have hl : longBit w = longBit v := by rw [longBit, longBit, hlong]
  have hm : modeBit w = modeBit v := by rw [modeBit, modeBit, hmode]
  cases h : Opcode.ofBits (opcodeField v) with
  | add | and => simp only [decode, hop, h, hm]; split_ifs <;> simp only [Instr.row]
  | jsr => simp only [decode, hop, h, hl]; split_ifs <;> simp only [Instr.row]
  | _ => simp only [decode, hop, h, Instr.row]

/-- The table is exact on the words that hold the three fields alone. -/
theorem rows_of_rowWord : ∀ (op : BitVec 4) (long mode : BitVec 1),
    opcodeRows.filter (fun r => rowWord op long mode &&& r.2 == r.1) =
      [(decode (rowWord op long mode)).row] := by decide

theorem fields_rowWord : ∀ (op : BitVec 4) (long mode : BitVec 1),
    opcodeField (rowWord op long mode) = op ∧ bits 11 11 (rowWord op long mode) = long ∧
      bits 5 5 (rowWord op long mode) = mode := by decide

/-- Settles O3: rows and decoder look at a word through its opcode, `long` and `mode` only, and the
table is exact on the 64 values these can have. -/
theorem everyWordIsOfExactlyItsTableRow : Obligations.EveryWordIsOfExactlyItsTableRow := by
  intro w
  obtain ⟨hop, hlong, hmode⟩ := fields_rowWord (opcodeField w) (bits 11 11 w) (bits 5 5 w)
  rw [row_decode_congr hop.symm hlong.symm hmode.symm, ← rows_of_rowWord, ← and_rowMask]
  exact List.filter_congr fun r hr => by rw [and_mask_of_mem_opcodeRows hr w]

/-- Settles O5: the decoder computes on words. -/
theorem sampleWordsDecode : Obligations.SampleWordsDecode := by
  unfold Obligations.SampleWordsDecode
  decide

end Sys2Proof

/-! Ignored bits, JSRR, and TRAP's failure (spec 30_encoding.md R55, 41_control.md R94,
43_trap_and_reserved.md R120 to R123). -/

namespace Sys2Proof

open Machine

/-- TRAP with a vector of the table has a service (R121). -/
theorem exists_service_of_vector {vect : BitVec 8} (h : 0x20 ≤ vect.toNat)
    (h' : vect.toNat ≤ 0x27) :
    ∃ svc, Service.ofVector vect = some svc := by
  refine Option.ne_none_iff_exists'.mp fun hnone => ?_
  have := (ofVector_eq_none vect).mp hnone
  omega

/-- Settles O4: the decodings known for all ignored bits do not mention them; in TRAP, RTI and RES
only a failure's recorded word does. -/
theorem ignoredBitsMakeNoDifference : Obligations.IgnoredBitsMakeNoDifference := by
  refine ⟨fun dr sr1 sr2 g h => ⟨?_, ?_⟩, fun dr sr1 g h => ?_, fun base g₁ h₁ g₂ h₂ => ?_,
    fun base g₁ h₁ g₂ h₂ => ?_, fun g h vect s hlo hhi => ?_, fun g h s hs => ⟨?_, ?_⟩⟩
  · rw [(addRegisterResultAndFrame dr sr1 sr2 g .reset).1,
      (addRegisterResultAndFrame dr sr1 sr2 h .reset).1]
  · rw [(andRegisterResultAndFrame dr sr1 sr2 g .reset).1,
      (andRegisterResultAndFrame dr sr1 sr2 h .reset).1]
  · rw [(notResultAndFrame dr sr1 g .reset).1, (notResultAndFrame dr sr1 h .reset).1]
  · rw [decode_jmpWord, decode_jmpWord]
  · rw [decode_jsrrWord, decode_jsrrWord]
  · obtain ⟨svc, hsvc⟩ := exists_service_of_vector hlo hhi
    rw [exec_trap_of_vector hsvc, exec_trap_of_vector hsvc]
  · rw [exec_rti, exec_rti, unimplemented_of_not_strict hs, unimplemented_of_not_strict hs]
  · rw [exec_res, exec_res, unimplemented_of_not_strict hs, unimplemented_of_not_strict hs]

/-- JSRR reads its base after the link is written, so base 7 gives the return address (R94). -/
theorem exec_jsrr (base : Reg) (s : State) :
    exec (.jsrr base) s =
      .next ((s.setReg linkReg s.pc).setPc (if base = 7 then s.pc else s.reg base)) := by
  rw [← show linkReg = 7 from rfl, ← State.reg_setReg]; rfl

/-- Settles O19: JSRR is a call whose target is read with the link already in place. -/
theorem jsrrLinksThenReadsBase : Obligations.JsrrLinksThenReadsBase := fun base ign₁ ign₂ s =>
  ⟨decode_jsrrWord base ign₁ ign₂, _, exec_jsrr base s, call_callOnly s _ _⟩

theorem exec_trap_of_no_vector {vect : BitVec 8} (h : Service.ofVector vect = none) (ign : BitVec 4)
    (s : State) :
    exec (.trap ign vect) s = .next (s.raise .invalidTrap (0b1111#4 ++ ign ++ vect)) := by
  simp only [exec, execTrap, h]; rfl

/-- Settles O27: such a vector selects no service, and the failure is `raise` of the whole word. -/
theorem invalidVectorFails : Obligations.InvalidVectorFails := fun ign vect s h =>
  ⟨decode_trapWord ign vect, _, exec_trap_of_no_vector ((ofVector_eq_none vect).mpr h) ign s,
    raise_failureOnly s _ _⟩

/-- Settles O28: without a service TRAP raises; with one it never leaves a Running core Faulted. -/
theorem trapFailsExactlyOutsideTable : Obligations.TrapFailsExactlyOutsideTable := by
  intro ign vect s t hr ht
  rw [← ofVector_eq_none]
  obtain ⟨hv, rfl⟩ | ⟨svc, hv, hp⟩ := exec_trap_next ht
  · simp [hv]
  · simp [hv, perform_run_ne_faulted hp hr]

/-- Settles O42: a failure writes three status fields, and a service at most the I/O register, the
streams and the status. -/
theorem trapIsNoControlTransfer : Obligations.TrapIsNoControlTransfer := by
  intro ign vect s t ht
  obtain ⟨-, rfl⟩ | ⟨svc, -, hp⟩ := exec_trap_next ht
  · exact ⟨fun _ _ => rfl, rfl, rfl, fun _ => rfl, rfl⟩
  · obtain ⟨hregs, hpc, hcond, hmem, -, -, hstrict⟩ := perform_keeps hp
    exact ⟨hregs, hpc, hcond, hmem, hstrict⟩

end Sys2Proof

/-! Executing an instruction, part by part of the state: `RUN` and the failures, the Word Store, the
streams, `COND` and `pc` (spec 30_encoding.md R61, 10_state.md R14, R16, 60_exceptions.md R153). -/

namespace Sys2Proof

open Machine

section
variable {i : Instr} {s t : State} (h : exec i s = .next t)
include h

/-- An instruction keeps `RUN`, or it is a TRAP to HALT, or it raises one of the two failures. -/
theorem exec_run :
    t.run = s.run ∨
    (∃ ign vect, i = .trap ign vect ∧ Service.ofVector vect = some .halt ∧ t.run = .halted) ∨
    (∃ ign vect, i = .trap ign vect ∧ Service.ofVector vect = none ∧
      t = s.raise .invalidTrap (encode i)) ∨
    (i.opcode ∈ [Opcode.rti, .res] ∧ s.strict = true ∧
      t = s.raise .unimplementedOpcode (encode i)) := by
  obtain ⟨-, dr, v, rfl⟩ | hstore | ⟨-, p, rfl⟩ | ⟨-, p, rfl⟩ | ⟨hop, hun⟩ |
    ⟨ign, vect, rfl, hsvc⟩ := exec_next h
  · exact .inl rfl
  · obtain ⟨sr, off, -, rfl⟩ | ⟨sr, off, -, rfl⟩ | ⟨sr, base, off, -, rfl⟩ := hstore <;>
      exact .inl rfl
  · exact .inl rfl
  · exact .inl rfl
  · obtain ⟨-, rfl⟩ | ⟨hs, rfl⟩ := hun
    · exact .inl rfl
    · exact .inr (.inr (.inr ⟨hop, hs, rfl⟩))
  · obtain ⟨hv, rfl⟩ | ⟨svc, hv, hp⟩ := hsvc
    · exact .inr (.inr (.inl ⟨ign, vect, rfl, hv, rfl⟩))
    · obtain hrun | ⟨rfl, hrun⟩ := perform_run hp
      · exact .inl hrun
      · exact .inr (.inl ⟨ign, vect, rfl, hv, hrun⟩)

/-- An instruction that is no store leaves the Word Store alone. -/
theorem exec_mem :
    t.mem = s.mem ∨
    (∃ sr off, i = .st sr off ∧ t = s.writeMem (s.pcRelative off) (s.reg sr)) ∨
    (∃ sr off, i = .sti sr off ∧ t = s.writeMem (s.indirect off) (s.reg sr)) ∨
    (∃ sr base off, i = .str sr base off ∧ t = s.writeMem (s.baseOffset base off) (s.reg sr)) := by
  obtain ⟨-, dr, v, rfl⟩ | hstore | ⟨-, p, rfl⟩ | ⟨-, p, rfl⟩ | ⟨-, hun⟩ |
    ⟨ign, vect, -, hsvc⟩ := exec_next h
  · exact .inl rfl
  · exact .inr hstore
  · exact .inl rfl
  · exact .inl rfl
  · obtain ⟨-, rfl⟩ | ⟨-, rfl⟩ := hun <;> exact .inl rfl
  · obtain ⟨-, rfl⟩ | ⟨svc, -, hp⟩ := hsvc
    · exact .inl rfl
    · exact .inl (perform_mem hp)

/-- Only services touch the streams, and nothing touches the strap. -/
theorem exec_streams : t.inp <:+ s.inp ∧ s.out <+: t.out ∧ t.strict = s.strict := by
  have same : s.inp <:+ s.inp ∧ s.out <+: s.out ∧ s.strict = s.strict :=
    ⟨List.suffix_refl _, List.prefix_refl _, rfl⟩
  obtain ⟨-, dr, v, rfl⟩ | hstore | ⟨-, p, rfl⟩ | ⟨-, p, rfl⟩ | ⟨-, hun⟩ |
    ⟨ign, vect, -, hsvc⟩ := exec_next h
  · exact same
  · obtain ⟨sr, off, -, rfl⟩ | ⟨sr, off, -, rfl⟩ | ⟨sr, base, off, -, rfl⟩ := hstore <;> exact same
  · exact same
  · exact same
  · obtain ⟨-, rfl⟩ | ⟨-, rfl⟩ := hun <;> exact same
  · obtain ⟨-, rfl⟩ | ⟨svc, -, hp⟩ := hsvc
    · exact same
    · obtain ⟨-, -, -, -, -, -, hstrict⟩ := perform_keeps hp
      exact ⟨(perform_streams hp).1, (perform_streams hp).2, hstrict⟩

/-- Only the seven instructions of R16 touch `COND`. -/
theorem exec_cond :
    t.cond = s.cond ∨ i.opcode ∈ [Opcode.add, .and, .not, .ld, .ldi, .ldr, .lea] := by
  obtain ⟨hop, -⟩ | hstore | ⟨-, p, rfl⟩ | ⟨-, p, rfl⟩ | ⟨-, hun⟩ | ⟨ign, vect, rfl, -⟩ :=
    exec_next h
  · exact .inr hop
  · obtain ⟨sr, off, -, rfl⟩ | ⟨sr, off, -, rfl⟩ | ⟨sr, base, off, -, rfl⟩ := hstore <;>
      exact .inl rfl
  · exact .inl rfl
  · exact .inl rfl
  · obtain ⟨-, rfl⟩ | ⟨-, rfl⟩ := hun <;> exact .inl rfl
  · obtain ⟨-, -, hcond, -⟩ := trapIsNoControlTransfer _ _ _ _ h
    exact .inl hcond

end

theorem unimplemented_pc (s : State) (word : Word) : (s.unimplemented word).pc = s.pc := by
  unfold State.unimplemented; split_ifs <;> rfl

/-- The `pc` an instruction leaves, as the table of R14: the branch or call target, the base
register, or the `pc` it found. -/
def pcAfter (s : State) : Instr → Word
  | .br nzp off => if s.cond &&& nzp.setWidth 16 ≠ 0 then s.pc + off else s.pc
  | .jmp base => s.reg base
  | .jsr off => s.pc + off
  | .jsrr base => if base = 7 then s.pc else s.reg base
  | _ => s.pc

theorem exec_pc {i : Instr} {s t : State} (h : exec i s = .next t) : t.pc = pcAfter s i := by
  cases i with
  | br nzp off =>
    by_cases hc : s.cond &&& nzp.setWidth 16 = 0
    · rw [exec_br_of_not_taken off hc] at h; cases h
      exact (if_neg (not_not.2 hc)).symm
    · rw [exec_br_of_taken off hc] at h; cases h
      exact (if_pos hc).symm
  | jmp base => cases h; rfl
  | jsr off => cases h; rfl
  | jsrr base => rw [exec_jsrr] at h; cases h; rfl
  | rti ign => cases h; exact unimplemented_pc s _
  | res ign => cases h; exact unimplemented_pc s _
  | trap ign vect => exact (trapIsNoControlTransfer ign vect s t h).2.1
  | st | sti | str => cases h; rfl
  | addReg | addImm | andReg | andImm | not | ld | ldi | ldr | lea => cases h; rfl

end Sys2Proof

/-! Whole steps (spec 30_encoding.md R60, R61): what a step of a Running core is, and what a step
may change. -/

namespace Sys2Proof

open Machine

/-- Settles O45: a Running core with no request fetches, and `advance` is the increment of `pc`. -/
theorem stepRunsTheDecodedInstruction : Obligations.StepRunsTheDecodedInstruction := by
  intro s i hr ho hi
  rw [step_of_running hr ho, State.fetchWord, hi]; rfl

/-- Settles O46: of the three values of `RUN`, `cycle` acts on Running alone. -/
theorem endedRunStaysAsItIs : Obligations.EndedRunStaysAsItIs := by
  intro s hr
  cases h : s.run with
  | running => exact absurd h hr
  | halted | faulted => simp only [step, cycle, h]

/-- Settles O47: `pcAfter` on the incremented `pc` is the table. -/
theorem programCounterAfterStep : Obligations.ProgramCounterAfterStep := by
  intro s t hr ho ht
  rw [step_of_running hr ho] at ht
  rw [exec_pc ht]
  cases decode s.fetchWord <;> rfl

/-- A step that fetches an ST stores its register at the PC-relative address (R105). -/
theorem step_of_fetch_st {s : State} {sr : Reg} {off9 : BitVec 9} (hr : s.run = .running)
    (ho : s.outstanding = none) (hf : s.fetchWord = 0b0011#4 ++ regBits sr ++ off9) :
    step s = .next (s.advance.writeMem (s.pc + 1 + sext off9) (s.reg sr)) := by
  rw [step_of_running hr ho, hf, decode_pc9Word decode_st, exec_st]; rfl

/-- Settles O48: the store is a write to the very cell the next fetch reads (offset 0), or to the
cell just fetched from (offset -1). -/
theorem storeIsSeenByTheNextFetch : Obligations.StoreIsSeenByTheNextFetch := by
  refine fun s sr hr ho => ⟨fun hf => ⟨_, step_of_fetch_st hr ho hf, ?_⟩,
    fun hf => ⟨_, step_of_fetch_st hr ho hf, ?_, rfl⟩⟩
  · have hnext : s.pc + 1 + sext 0#9 = s.pc + 1 := BitVec.add_zero _
    rw [hnext]
    have hfetch : (s.advance.writeMem (s.pc + 1) (s.reg sr)).fetchWord = s.reg sr :=
      State.readMem_writeMem_same _ _ _
    refine ⟨hfetch, ?_⟩
    refine (stepRunsTheDecodedInstruction (s.advance.writeMem _ _) _ hr ho
      (congrArg decode hfetch)).trans ?_
    have hpc : s.pc + 1 + 1 = s.pc + 2 := BitVec.add_assoc _ _ _
    rw [← hpc]; rfl
  · have hown : s.pc + 1 + sext 0x1FF#9 = s.pc := by
      rw [BitVec.add_assoc, show 1 + sext 0x1FF#9 = 0#16 by decide, BitVec.add_zero]
    rw [hown]
    exact State.readMem_writeMem_same _ _ _

/-- A service outstanding in a state that meets the invariant is not HALT, so performing it keeps
`RUN`. -/
theorem run_of_perform_outstanding {s t : State} {svc : Service} (hinv : Inv s)
    (ho : s.outstanding = some svc) (hp : perform svc s = .next t) : t.run = s.run := by
  obtain hrun | ⟨rfl, -⟩ := perform_run hp
  · exact hrun
  · obtain ⟨-, -, -, hnone | ⟨-, hmem⟩⟩ := hinv
    · rw [ho] at hnone; cases hnone
    · rw [ho] at hmem; simp at hmem

/-- From a Running state that meets the invariant, a step that changes `RUN` is a fetching one. -/
theorem fetch_of_run_ne {s t : State} (hinv : Inv s) (hr : s.run = .running)
    (ht : step s = .next t) (hne : t.run ≠ .running) :
    s.outstanding = none ∧ exec (decode s.fetchWord) s.advance = .next t := by
  obtain ⟨hended, -⟩ | ⟨-, svc, ho, hp⟩ | ⟨-, ho, he⟩ := step_next ht
  · exact absurd hr hended
  · exact absurd ((run_of_perform_outstanding hinv ho hp).trans hr) hne
  · exact ⟨ho, he⟩

/-- Settles O52: among the instructions only a TRAP to HALT makes a Running core Halted. -/
theorem onlyHaltServiceHalts : Obligations.OnlyHaltServiceHalts := by
  intro s t hinv hr ht hhalted
  obtain ⟨ho, he⟩ := fetch_of_run_ne hinv hr ht (by rw [hhalted]; decide)
  obtain hrun | ⟨ign, vect, hi, hv, -⟩ | ⟨ign, vect, -, -, rfl⟩ | ⟨-, -, rfl⟩ := exec_run he
  · have hrunning : t.run = .running := hrun.trans hr
    rw [hhalted] at hrunning; cases hrunning
  · obtain ⟨hop, hvect⟩ := fields_of_decode_trap hi
    exact ⟨ho, hop, hvect.trans (ofVector_eq_some_halt vect hv)⟩
  · cases hhalted
  · cases hhalted

/-- The fields of slots 1000 and 1101 make up the whole word (R51). -/
theorem opcodeField_append_bits (w : Word) : opcodeField w ++ bits 11 0 w = w := by
  have := w.isLt
  apply BitVec.eq_of_toNat_eq
  rw [toNat_append_add, toNat_opcodeField, toNat_bits]
  omega

/-- The fields of slot 1111 make up the whole word (R51). -/
theorem opcodeField_append_trap_fields (w : Word) :
    opcodeField w ++ bits 11 8 w ++ trapvect8Field w = w := by
  have := w.isLt
  apply BitVec.eq_of_toNat_eq
  rw [toNat_append_add, toNat_append_add, toNat_opcodeField, trapvect8Field, toNat_bits, toNat_bits]
  omega

/-- TRAP, RTI and RES keep every bit of their word (log 11), so encoding gives it back. -/
theorem encode_decode_of_failing {w : Word} (h : (decode w).opcode ∈ [Opcode.trap, .rti, .res]) :
    encode (decode w) = w := by
  have hop := opcodeField_eq_opcode_bits w
  simp only [List.mem_cons, List.not_mem_nil, or_false] at h
  obtain h | h | h := h <;> rw [h] at hop
  · rw [decode_trap hop]
    exact (congrArg (· ++ bits 11 8 w ++ trapvect8Field w) hop.symm).trans
      (opcodeField_append_trap_fields w)
  · rw [decode_rti hop]
    exact (congrArg (· ++ bits 11 0 w) hop.symm).trans (opcodeField_append_bits w)
  · rw [decode_res hop]
    exact (congrArg (· ++ bits 11 0 w) hop.symm).trans (opcodeField_append_bits w)

/-- Settles O53: the failures are `raise` after the increment of `pc`, and the word they record is
the encoding of the fetched instruction, which is the fetched word. -/
theorem onlyFailuresFaultAndArePrecise : Obligations.OnlyFailuresFaultAndArePrecise := by
  intro s t hinv hr ht hfaulted
  obtain ⟨ho, he⟩ := fetch_of_run_ne hinv hr ht (by rw [hfaulted]; decide)
  refine ⟨ho, ?_⟩
  obtain hrun | ⟨ign, vect, -, -, hrun⟩ | ⟨ign, vect, hi, hv, rfl⟩ | ⟨hop, hs, rfl⟩ := exec_run he
  · have hrunning : t.run = .running := hrun.trans hr
    rw [hfaulted] at hrunning; cases hrunning
  · rw [hfaulted] at hrun; cases hrun
  · obtain ⟨hopc, hvect⟩ := fields_of_decode_trap hi
    rw [encode_decode_of_failing (by rw [hi]; simp [Instr.opcode])]
    exact .inl ⟨hopc, by rwa [hvect, ← ofVector_eq_none], raise_failureOnly s.advance _ _⟩
  · rw [encode_decode_of_failing (List.mem_cons_of_mem _ hop), opcodeField_eq_opcode_bits]
    refine .inr ⟨?_, hs, raise_failureOnly s.advance _ _⟩
    simp only [List.mem_cons, List.not_mem_nil, or_false] at hop
    obtain hop | hop := hop
    · exact .inl (by rw [hop]; rfl)
    · exact .inr (by rw [hop]; rfl)

/-- Settles O54: a step does nothing, performs a service, or executes an instruction. -/
theorem streamsOnlyAdvanceAndStrapIsFixed : Obligations.StreamsOnlyAdvanceAndStrapIsFixed := by
  intro s t ht
  obtain ⟨-, rfl⟩ | ⟨-, svc, -, hp⟩ | ⟨-, -, he⟩ := step_next ht
  · exact ⟨List.suffix_refl _, List.prefix_refl _, rfl⟩
  · obtain ⟨-, -, -, -, -, -, hstrict⟩ := perform_keeps hp
    exact ⟨(perform_streams hp).1, (perform_streams hp).2, hstrict⟩
  · exact exec_streams (s := s.advance) he

/-- Settles O55: ended cores and services leave the Word Store alone, and so does every instruction
but the three stores, which write one cell. -/
theorem onlyStoresChangeMemory : Obligations.OnlyStoresChangeMemory := by
  rintro s t ht ⟨a, ha⟩
  have hmem : t.mem ≠ s.mem := fun h => ha (congrArg (Memory.read · a) h)
  obtain ⟨-, rfl⟩ | ⟨-, svc, -, hp⟩ | ⟨hr, ho, he⟩ := step_next ht
  · exact absurd rfl hmem
  · exact absurd (perform_mem hp) hmem
  · refine ⟨hr, ho, ?_⟩
    obtain hsame | ⟨sr, off, hi, rfl⟩ | ⟨sr, off, hi, rfl⟩ | ⟨sr, base, off, hi, rfl⟩ := exec_mem he
    · exact absurd hsame hmem
    all_goals
      rw [hi]
      obtain ⟨hcell, hother, -⟩ := writeMem_storeOnly s.advance _ _
      exact ⟨hcell, hother⟩

/-- Settles O56: only the seven touch `COND`, and they write a result with its flag to DR. -/
theorem onlySevenInstructionsChangeCond : Obligations.OnlySevenInstructionsChangeCond := by
  intro s t ht hcond
  obtain ⟨-, rfl⟩ | ⟨-, svc, -, hp⟩ | ⟨hr, ho, he⟩ := step_next ht
  · exact absurd rfl hcond
  · obtain ⟨-, -, hsame, -⟩ := perform_keeps hp
    exact absurd hsame hcond
  · obtain hsame | hop := exec_cond he
    · exact absurd hsame hcond
    · obtain ⟨v, rfl⟩ := exec_decode_result he hop
      obtain ⟨hreg, hflag, -⟩ := writeResult_resultOnly s.advance (drField s.fetchWord) v
      exact ⟨hr, ho, hop, by rw [hreg]; exact hflag⟩

/-- A service other than INU16 answers a next state (R132, R130). -/
theorem perform_total {svc : Service} (h : svc ≠ .inu16) (s : State) :
    ∃ t, perform svc s = .next t := by
  cases ha : attempt svc s with
  | done u => exact ⟨_, by rw [perform, ha]⟩
  | waiting u => exact ⟨_, by rw [perform, ha]⟩
  | refused r => exact absurd (attempt_refused ha).1 h

/-- Every instruction but a TRAP to INU16 answers a next state. -/
theorem exec_total {i : Instr} (h : ∀ ign, i ≠ .trap ign 0x26#8) (s : State) :
    ∃ t, exec i s = .next t := by
  cases i with
  | trap ign vect =>
    cases hv : Service.ofVector vect with
    | none => exact ⟨_, exec_trap_of_no_vector hv ign s⟩
    | some svc =>
      rw [exec_trap_of_vector hv]
      refine perform_total ?_ s
      rintro rfl
      exact h ign (by rw [ofVector_eq_some_inu16 vect hv])
  | _ => exact ⟨_, rfl⟩

/-- Settles O57: the rest always answers, and a refusal is one of INU16, fetched or outstanding. -/
theorem onlyDecimalInputIsRefused : Obligations.OnlyDecimalInputIsRefused := by
  refine ⟨fun i s h => exec_total h s, fun s r hs => ?_⟩
  obtain ⟨hr, ⟨svc, ho, hp⟩ | ⟨ho, he⟩⟩ := step_refused hs
  · obtain ⟨rfl, hreason⟩ := attempt_refused (perform_refused hp)
    exact ⟨hr, hreason, .inl ho⟩
  · have htrap : ∃ ign, decode s.fetchWord = .trap ign 0x26#8 := by
      by_contra hno
      obtain ⟨t, ht⟩ := exec_total (not_exists.mp hno) s.advance
      rw [ht] at he; cases he
    obtain ⟨ign, hi⟩ := htrap
    rw [hi, exec_trap_of_vector ofVector_inu16] at he
    exact ⟨hr, (attempt_refused (perform_refused he)).2, .inr ⟨ho, fields_of_decode_trap hi⟩⟩

/-- Settles O7: `setcc` writes `COND` with the value's flag. -/
theorem setccOverwritesCondOnly : Obligations.SetccOverwritesCondOnly := fun _ v =>
  ⟨condOf_eq v, fun _ _ => rfl, rfl, fun _ => rfl, ⟨rfl, rfl⟩, ⟨rfl, rfl, rfl, rfl, rfl⟩⟩

/-- Settles O14: addition of words is right modulo 65536 for either reading. -/
theorem addIsRightSignedAndUnsigned : Obligations.AddIsRightSignedAndUnsigned := by
  intro dr sr1 sr2 s
  obtain ⟨hreg, -⟩ := writeResult_resultOnly s dr (s.reg sr1 + s.reg sr2)
  refine ⟨_, exec_addReg dr sr1 sr2 s, ?_, ?_⟩
  · rw [hreg, BitVec.toNat_add]
  · rw [hreg, BitVec.toInt_add]

end Sys2Proof

/-! Reset and the loader (spec 10_state.md R22, 70_reset_and_hazards.md R170 to R174). -/

namespace Sys2Proof

open Machine

/-- A loaded memory reads the word that lies on the cell, else what it read before. -/
theorem read_loadWords (m : Memory) (start a : Word) (ws : List Word) :
    (m.loadWords start.toNat ws).read a =
      if h : start.toNat ≤ a.toNat ∧ a.toNat - start.toNat < ws.length then
        ws[a.toNat - start.toNat]
      else m.read a :=
  Memory.lookup_loadWords m start.toNat a.toNat ws a.isLt

/-- The word two bytes of the file make, in the order chosen (R173). -/
def wordOfPair (order : ByteOrder) (b0 b1 : Byte) : Word :=
  match order with
  | .little => BitVec.ofNat 16 (b1.toNat * 256 + b0.toNat)
  | .big => BitVec.ofNat 16 (b0.toNat * 256 + b1.toNat)

/-- Concatenated bytes as a number: the high byte counts 256 times. -/
theorem byte_append_eq_ofNat (hi lo : Byte) :
    hi ++ lo = BitVec.ofNat 16 (hi.toNat * 256 + lo.toNat) :=
  BitVec.eq_of_toNat_eq (by rw [toNat_append_add, BitVec.toNat_ofNat]; omega)

theorem wordsOfBytes_cons_cons (order : ByteOrder) (b0 b1 : Byte) (bytes : List Byte) :
    wordsOfBytes order (b0 :: b1 :: bytes) =
      wordOfPair order b0 b1 :: wordsOfBytes order bytes := by
  cases order with
  | little => exact congrArg (· :: _) (byte_append_eq_ofNat b1 b0)
  | big => exact congrArg (· :: _) (byte_append_eq_ofNat b0 b1)

/-- An odd last byte makes no word (R172). -/
theorem length_wordsOfBytes (order : ByteOrder) (bytes : List Byte) :
    (wordsOfBytes order bytes).length = bytes.length / 2 := by
  induction bytes using List.twoStepInduction with
  | nil => rfl
  | singleton b => simp [wordsOfBytes]
  | cons_cons b0 b1 bytes ih _ =>
    rw [wordsOfBytes_cons_cons, List.length_cons, ih]
    simp only [List.length_cons]
    omega

/-- Word `i` of the file is made of its bytes `2 i` and `2 i + 1` (R173). -/
theorem getElem_wordsOfBytes (order : ByteOrder) (bytes : List Byte) (i : Nat)
    (h : 2 * i + 1 < bytes.length) (hi : i < (wordsOfBytes order bytes).length) :
    (wordsOfBytes order bytes)[i] = wordOfPair order bytes[2 * i] bytes[2 * i + 1] := by
  induction bytes using List.twoStepInduction generalizing i with
  | nil => simp at h
  | singleton b => simp at h
  | cons_cons b0 b1 bytes ih _ =>
    simp only [wordsOfBytes_cons_cons]
    cases i with
    | zero => rfl
    | succ i =>
      simp only [List.length_cons] at h
      exact ih i (by omega) (by rw [length_wordsOfBytes]; omega)

/-- Settles O60: the loader loads the file's words, of which each is made of its own two bytes. -/
theorem loaderPlacesTheImage : Obligations.LoaderPlacesTheImage := by
  intro m p bytes a
  have hlen := length_wordsOfBytes p.byteOrder bytes
  rw [Memory.loadBytes, read_loadWords]
  by_cases h : p.start.toNat ≤ a.toNat ∧ 2 * (a.toNat - p.start.toNat) + 1 < bytes.length
  · have hin : a.toNat - p.start.toNat < (wordsOfBytes p.byteOrder bytes).length := by omega
    rw [dif_pos ⟨h.1, hin⟩, dif_pos h, getElem_wordsOfBytes _ _ _ h.2]
    rfl
  · rw [dif_neg (by omega), dif_neg h]

/-- Settles O59: `launch` states the registers and the rest, and its memory is a load into an empty
Word Store. -/
theorem resetValuesOfTheRest : Obligations.ResetValuesOfTheRest := by
  intro p image r
  refine ⟨?_, rfl, rfl, rfl, rfl, rfl, rfl, rfl, fun a => read_loadWords [] p.start a image⟩
  fin_cases r <;> rfl

/-- Settles O50: loading keeps the canonical form, and the other fields have their reset values. -/
theorem launchMeetsInvariant : Obligations.LaunchMeetsInvariant := fun p image =>
  ⟨.inr (.inl rfl), Memory.loadWords_wf ⟨.nil, by simp⟩ p.start.toNat image,
    statusLegal_of_not_faulted (by rw [State.launch_run]; decide) rfl rfl, .inl rfl⟩

/-- Settles O49: the reset state is a launch. -/
theorem resetMeetsInvariant : Obligations.ResetMeetsInvariant := by
  have h := launchMeetsInvariant (Launch.mk 0x3000 0 false .little []) []
  rwa [launch_default_eq_reset] at h

end Sys2Proof

/-! The character services and HALT (spec 43_trap_and_reserved.md R124, R126, R127, R129, R132). -/

namespace Sys2Proof

open Machine

/-- A service that cannot complete stays outstanding (R132). -/
theorem perform_of_waiting {svc : Service} {s t : State} (h : attempt svc s = .waiting t) :
    perform svc s = .next (t.setOutstanding (some svc)) := by
  rw [perform, h]

/-- TRAP with a vector whose service cannot complete (R120, R132). -/
theorem exec_trap_of_waiting {vect : BitVec 8} {svc : Service} {s t : State}
    (hv : Service.ofVector vect = some svc) (h : attempt svc s = .waiting t) (ign : BitVec 4) :
    exec (.trap ign vect) s = .next (t.setOutstanding (some svc)) := by
  rw [exec_trap_of_vector hv, perform_of_waiting h]

/-- Recording a request and rewriting `In` touch nothing that R122 says a service keeps. -/
theorem setInp_setOutstanding_serviceKeeps (s : State) (bs : List Byte) (o : Option Service) :
    ServiceKeeps [] s ((s.setInp bs).setOutstanding o) :=
  ⟨fun _ _ => rfl, rfl, rfl, fun _ => rfl, rfl, rfl, rfl⟩

section
variable {s : State} {c : Byte} {rest : List Byte}

theorem attempt_getc_nil (h : s.inp = []) : attempt .getc s = .waiting s := by
  simp only [attempt, serviceGetc, h]

theorem attempt_input_nil (h : s.inp = []) : attempt .input s = .waiting s := by
  simp only [attempt, serviceInput, h]

theorem attempt_getc_cons (h : s.inp = c :: rest) :
    attempt .getc s = .done ((s.setInp rest).setReg 0 (BitVec.ofNat 16 c.toNat)) := by
  simp only [attempt, serviceGetc, h, ioReg, BitVec.ofNat_toNat]

theorem attempt_input_cons (h : s.inp = c :: rest) :
    attempt .input s =
      .done (((s.setInp rest).setReg 0 (BitVec.ofNat 16 c.toNat)).emit [c]) := by
  simp only [attempt, serviceInput, h, ioReg, BitVec.ofNat_toNat]

/-- GETC, from whatever asks for it, with a byte available (R124). -/
theorem perform_getc_cons (h : s.inp = c :: rest) :
    ∃ t, perform .getc s = .next t ∧ t.reg 0 = BitVec.ofNat 16 c.toNat ∧ t.inp = rest ∧
      t.out = s.out ∧ t.run = s.run ∧ t.outstanding = none ∧ ServiceKeeps [0] s t :=
  have hp := perform_of_done (attempt_getc_cons h)
  ⟨_, hp, State.reg_setReg_same _ _ _, rfl, rfl, rfl, rfl, perform_keeps hp⟩

/-- IN, from whatever asks for it, with a byte available (R127). -/
theorem perform_input_cons (h : s.inp = c :: rest) :
    ∃ t, perform .input s = .next t ∧ t.reg 0 = BitVec.ofNat 16 c.toNat ∧ t.inp = rest ∧
      t.out = s.out ++ [c] ∧ t.run = s.run ∧ t.outstanding = none ∧ ServiceKeeps [0] s t :=
  have hp := perform_of_done (attempt_input_cons h)
  ⟨_, hp, State.reg_setReg_same _ _ _, rfl, rfl, rfl, rfl, perform_keeps hp⟩

end

/-- Settles O29: TRAP x20 performs GETC. -/
theorem getcReadsOneByte : Obligations.GetcReadsOneByte := by
  intro ign s c rest h
  rw [exec_trap_of_vector ofVector_getc]
  exact perform_getc_cons h

/-- Settles O33: TRAP x23 performs IN. -/
theorem inReadsAndEchoesOneByte : Obligations.InReadsAndEchoesOneByte := by
  intro ign s c rest h
  rw [exec_trap_of_vector ofVector_input]
  exact perform_input_cons h

/-- Settles O35: HALT completes at once, and a halted core stays as it is. -/
theorem haltStopsTheRun : Obligations.HaltStopsTheRun := by
  intro ign s
  refine ⟨_, exec_trap_of_done ofVector_halt (attempt_halt s) ign, rfl, rfl, rfl, rfl,
    ⟨fun _ _ => rfl, rfl, rfl, fun _ => rfl, rfl, rfl, rfl⟩, endedRunStaysAsItIs _ ?_⟩
  rw [State.setOutstanding_run, State.halt_run]; decide

/-- A walk over nonzero words up to a zero word gives their low bytes and meets the end (R126). -/
theorem stringFrom_of_string {m : Memory} {str : List Word} {a : Word} {fuel : Nat}
    (hfuel : str.length < fuel) (hne : ∀ w ∈ str, w ≠ 0)
    (hstr : ∀ (k : Nat) (h : k < str.length), m.read (a + BitVec.ofNat 16 k) = str[k])
    (hend : m.read (a + BitVec.ofNat 16 str.length) = 0) :
    stringFrom m fuel a = (str.map lowByte, true) := by
  induction str generalizing a fuel with
  | nil =>
    obtain ⟨fuel, rfl⟩ := Nat.exists_eq_succ_of_ne_zero (Nat.ne_of_gt hfuel)
    have ha : m.read a = 0 := (congrArg m.read (BitVec.add_zero a)).symm.trans hend
    rw [stringFrom, if_pos ha]; rfl
  | cons w str ih =>
    obtain ⟨fuel, rfl⟩ := Nat.exists_eq_succ_of_ne_zero (Nat.ne_of_gt (Nat.zero_lt_of_lt hfuel))
    have ha : m.read a = w :=
      (congrArg m.read (BitVec.add_zero a)).symm.trans (hstr 0 (Nat.zero_lt_succ _))
    have hrest : stringFrom m fuel (a + 1) = (str.map lowByte, true) := by
      refine ih (Nat.lt_of_succ_lt_succ hfuel) (fun v hv => hne v (List.mem_cons_of_mem _ hv))
        (fun k hk => ?_) ?_
      · rw [add_one_add_ofNat]
        exact hstr (k + 1) (Nat.succ_lt_succ hk)
      · rw [add_one_add_ofNat]
        exact hend
    rw [stringFrom, if_neg (by rw [ha]; exact hne w List.mem_cons_self), hrest, ha]; rfl

section
variable {s : State} {bs : List Byte}

theorem attempt_puts_of_end (h : stringFrom s.mem storeSize (s.reg 0) = (bs, true)) :
    attempt .puts s = .done (s.emit bs) := by
  simp only [attempt, servicePuts, ioReg, h, if_true]

theorem attempt_puts_of_no_end (h : stringFrom s.mem storeSize (s.reg 0) = (bs, false)) :
    attempt .puts s = .waiting (s.emit bs) := by
  simp only [attempt, servicePuts, ioReg, h, Bool.false_eq_true, if_false]

end

/-- Settles O31: the walk meets the string's zero word within one lap. -/
theorem putsEmitsString : Obligations.PutsEmitsString := by
  intro ign s str hlen hne hstr hend
  have hwalk : stringFrom s.mem storeSize (s.reg 0) = (str.map lowByte, true) :=
    stringFrom_of_string hlen hne hstr hend
  refine ⟨_, exec_trap_of_done ofVector_puts (attempt_puts_of_end hwalk) ign, ?_, rfl, rfl, rfl,
    emit_setOutstanding_serviceKeeps s _ none⟩
  rw [State.setOutstanding_out, State.emit_out, funext lowByte_eq_extractLsb']

/-- One lap of PUTS over a Word Store with no zero word (log 9). -/
theorem perform_puts_lap {s : State} (hne : ∀ a, s.readMem a ≠ 0) :
    ∃ t, perform .puts s = .next t ∧ t.run = s.run ∧ t.outstanding = some .puts ∧
      t.out = s.out ++ (List.range storeSize).map
        (fun k => (s.readMem (s.reg 0 + BitVec.ofNat 16 k)).extractLsb' 0 8) ∧
      t.inp = s.inp ∧ ServiceKeeps [] s t := by
  have hwalk := stringFrom_of_ne_zero hne storeSize (s.reg 0)
  refine ⟨_, perform_of_waiting (attempt_puts_of_no_end hwalk), rfl, rfl, ?_, rfl,
    emit_setOutstanding_serviceKeeps s _ _⟩
  simp only [State.setOutstanding_out, State.emit_out, lowByte_eq_extractLsb']
  rfl

/-- Settles O32: the TRAP and every later step perform PUTS, one lap each. -/
theorem putsWithoutTerminatorNeverCompletes : Obligations.PutsWithoutTerminatorNeverCompletes := by
  intro s hne hr
  obtain ⟨t, hp, hrun, hlap⟩ := perform_puts_lap hne
  refine ⟨fun ign => ⟨t, ?_, hrun.trans hr, hlap⟩, fun ho => ⟨t, ?_, hrun.trans hr, hlap⟩⟩
  · rw [exec_trap_of_vector ofVector_puts, hp]
  · rw [step_of_outstanding hr ho, hp]

end Sys2Proof

/-! The decimal services INU16 and OUTU16 (spec 43_trap_and_reserved.md R130, R131). -/

namespace Sys2Proof

open Machine

/-- Dropping a run of `p` that something else ends. -/
theorem dropWhile_append_of_head {p : Byte → Bool} {xs ys : List Byte} (hxs : ∀ b ∈ xs, p b = true)
    (hys : ∀ b ∈ ys.head?, ¬ p b = true) : (xs ++ ys).dropWhile p = ys := by
  rw [List.dropWhile_append_of_pos hxs]
  cases ys with
  | nil => rfl
  | cons y ys => exact List.dropWhile_cons_of_neg (hys y rfl)

/-- Taking a run of `p` that something else ends. -/
theorem takeWhile_append_of_head {p : Byte → Bool} {xs ys : List Byte} (hxs : ∀ b ∈ xs, p b = true)
    (hys : ∀ b ∈ ys.head?, ¬ p b = true) : (xs ++ ys).takeWhile p = xs := by
  rw [List.takeWhile_append_of_pos hxs]
  cases ys with
  | nil => exact List.append_nil xs
  | cons y ys => rw [List.takeWhile_cons_of_neg (hys y rfl), List.append_nil]

theorem isSpace_iff (b : Byte) :
    isSpace b = true ↔ b ∈ ([0x20, 0x09, 0x0A, 0x0B, 0x0C, 0x0D] : List Byte) := by
  simp [isSpace, or_assoc]

theorem isDigit_iff (b : Byte) : isDigit b = true ↔ 0x30 ≤ b.toNat ∧ b.toNat ≤ 0x39 :=
  decide_eq_true_iff

theorem not_isSpace_of_isDigit : ∀ b : Byte, isDigit b = true → ¬ isSpace b = true := by decide

section
variable {s : State} {ws : List Byte} (hws : ∀ b ∈ ws, isSpace b = true)
include hws

/-- INU16 with nothing but white space to read waits, and has consumed it (R130, R132). -/
theorem attempt_inu16_of_spaces (hinp : s.inp = ws) :
    attempt .inu16 s = .waiting (s.setInp []) := by
  have hskip : s.inp.dropWhile isSpace = [] := by
    rw [hinp]; exact List.dropWhile_eq_nil_iff.mpr hws
  simp only [attempt, serviceInu16, hskip]

/-- INU16 on a first byte that is no digit (93 U5). -/
theorem attempt_inu16_of_no_digit {c : Byte} {rest : List Byte} (hinp : s.inp = ws ++ c :: rest)
    (hc : ¬ isSpace c = true) (hd : ¬ isDigit c = true) :
    attempt .inu16 s = .refused .decimalInputMalformed := by
  have hskip : s.inp.dropWhile isSpace = c :: rest := by
    rw [hinp]; exact dropWhile_append_of_head hws (by simpa using hc)
  simp only [attempt, serviceInu16, hskip, if_neg hd]

/-- INU16 on a maximal run of digits: its value is written if it fits a word, else refused. -/
theorem attempt_inu16_of_digits {ds rest : List Byte} (hinp : s.inp = ws ++ ds ++ rest)
    (hne : ds ≠ []) (hds : ∀ b ∈ ds, isDigit b = true)
    (hrest : ∀ b ∈ rest.head?, ¬ isDigit b = true) :
    attempt .inu16 s =
      if decimalValue ds ≤ 65535 then
        .done ((s.setInp rest).setReg 0 (BitVec.ofNat 16 (decimalValue ds)))
      else .refused .decimalInputTooLarge := by
  obtain ⟨d, ds', rfl⟩ := List.exists_cons_of_ne_nil hne
  have hd : isDigit d = true := hds d List.mem_cons_self
  have hskip : s.inp.dropWhile isSpace = d :: (ds' ++ rest) := by
    rw [hinp, List.append_assoc]
    exact dropWhile_append_of_head hws (by simpa using not_isSpace_of_isDigit d hd)
  have htake : (d :: (ds' ++ rest)).takeWhile isDigit = d :: ds' :=
    takeWhile_append_of_head hds hrest
  have hdrop : (d :: (ds' ++ rest)).dropWhile isDigit = rest := dropWhile_append_of_head hds hrest
  simp only [attempt, serviceInu16, hskip, if_pos hd, htake, hdrop, ioReg]

end

/-- Settles O36: the run of digits is what INU16 takes, and its value fits a word. -/
theorem inu16ReadsDecimal : Obligations.Inu16ReadsDecimal := by
  intro ign s ws ds rest hws hne hds hrest hinp hfits
  have hdone := (attempt_inu16_of_digits (fun b hb => (isSpace_iff b).mpr (hws b hb)) hinp hne
    (fun b hb => (isDigit_iff b).mpr (hds b hb))
    fun b hb => (isDigit_iff b).not.mpr (hrest b hb)).trans (if_pos hfits)
  have hp := perform_of_done hdone
  refine ⟨_, (exec_trap_of_vector ofVector_inu16 s).trans hp, ?_, rfl, rfl, rfl, rfl,
    perform_keeps hp⟩
  rw [State.setOutstanding_reg, State.reg_setReg_same, BitVec.toNat_ofNat]
  exact Nat.mod_eq_of_lt (Nat.lt_succ_of_le hfits)

/-- A refused service is a refused TRAP. -/
theorem exec_trap_of_refused {vect : BitVec 8} {svc : Service} {s : State} {r : Refusal}
    (hv : Service.ofVector vect = some svc) (h : attempt svc s = .refused r) (ign : BitVec 4) :
    exec (.trap ign vect) s = .refused r := by
  rw [exec_trap_of_vector hv, perform, h]

/-- Settles O37: the two refusals of INU16. A value that is too large has at least one digit. -/
theorem inu16RefusesMeaninglessInput : Obligations.Inu16RefusesMeaninglessInput := by
  intro ign s ws hws
  have hspaces : ∀ b ∈ ws, isSpace b = true := fun b hb => (isSpace_iff b).mpr (hws b hb)
  refine ⟨fun c rest hinp hc hd => ?_, fun ds rest hinp hds hrest hlarge => ?_⟩
  · exact exec_trap_of_refused ofVector_inu16 (attempt_inu16_of_no_digit hspaces hinp
      ((isSpace_iff c).not.mpr hc) ((isDigit_iff c).not.mpr hd)) ign
  · have hne : ds ≠ [] := by rintro rfl; simp at hlarge
    have hrefused := (attempt_inu16_of_digits hspaces hinp hne
      (fun b hb => (isDigit_iff b).mpr (hds b hb))
      fun b hb => (isDigit_iff b).not.mpr (hrest b hb)).trans (if_neg (Nat.not_le_of_lt hlarge))
    exact exec_trap_of_refused ofVector_inu16 hrefused ign

/-- Settles O40: without input the attempt waits, having changed nothing but for consumed white
space. -/
theorem inputServicesBlockWithoutInput : Obligations.InputServicesBlockWithoutInput := by
  intro ign s hr
  refine ⟨fun h => ?_, fun h => ?_, fun h => ?_⟩
  · exact ⟨_, exec_trap_of_waiting ofVector_getc (attempt_getc_nil h) ign, hr, rfl, ⟨rfl, rfl⟩,
      setInp_setOutstanding_serviceKeeps s s.inp _⟩
  · exact ⟨_, exec_trap_of_waiting ofVector_input (attempt_input_nil h) ign, hr, rfl, ⟨rfl, rfl⟩,
      setInp_setOutstanding_serviceKeeps s s.inp _⟩
  · have hwait := attempt_inu16_of_spaces (fun b hb => (isSpace_iff b).mpr (h b hb)) rfl
    exact ⟨_, exec_trap_of_waiting ofVector_inu16 hwait ign, hr, rfl, rfl, rfl,
      setInp_setOutstanding_serviceKeeps s [] _⟩

/-- Leaving an empty `In` empty changes nothing. -/
theorem setInp_nil_eq_self {s : State} (h : s.inp = []) : s.setInp [] = s := by
  rw [← h]; rfl

/-- A blocked core whose service still waits in the same state stays as it is. -/
theorem step_of_still_waiting {s : State} {svc : Service} (hr : s.run = .running)
    (ho : s.outstanding = some svc) (h : attempt svc s = .waiting s) : step s = .next s := by
  rw [step_of_outstanding hr ho, perform_of_waiting h, setOutstanding_eq_self ho]

/-- Settles O41: a step of a blocked core attempts the service again: on no input it waits in the
same state, and on supplied bytes it is the service performed on them. -/
theorem blockedCoreWaitsAndWakes : Obligations.BlockedCoreWaitsAndWakes := by
  intro s hr
  refine ⟨fun ho => ⟨fun h => ?_, fun c bs h => ?_⟩, fun ho => ⟨fun h => ?_, fun c bs h => ?_⟩,
    fun ho => ⟨fun h => ?_, fun bs => ?_⟩⟩
  · exact step_of_still_waiting hr ho (attempt_getc_nil h)
  · obtain ⟨t, hp, hreg, hinp, hout, hrun, hnone, hkeeps⟩ :=
      perform_getc_cons (s := s.supplyInput (c :: bs)) (congrArg (· ++ c :: bs) h)
    exact ⟨t, (step_of_outstanding (s := s.supplyInput _) hr ho).trans hp, hreg, hinp, hout,
      hnone, hrun.trans hr, hkeeps⟩
  · exact step_of_still_waiting hr ho (attempt_input_nil h)
  · obtain ⟨t, hp, hreg, hinp, hout, hrun, hnone, hkeeps⟩ :=
      perform_input_cons (s := s.supplyInput (c :: bs)) (congrArg (· ++ c :: bs) h)
    exact ⟨t, (step_of_outstanding (s := s.supplyInput _) hr ho).trans hp, hreg, hinp, hout,
      hnone, hrun.trans hr, hkeeps⟩
  · have hwait := attempt_inu16_of_spaces (ws := []) (by simp) h
    rw [setInp_nil_eq_self h] at hwait
    exact step_of_still_waiting hr ho hwait
  · exact (step_of_outstanding (s := s.supplyInput bs) hr ho).trans
      (exec_trap_of_vector ofVector_inu16 _).symm

/-- One more digit at the end counts the others ten times. -/
theorem decimalValue_append_digit (ds : List Byte) (b : Byte) :
    decimalValue (ds ++ [b]) = decimalValue ds * 10 + digitValue b := by
  simp [decimalValue]

theorem toNat_digitByte {d : Nat} (h : d < 10) : (digitByte d).toNat = 0x30 + d := by
  rw [digitByte, BitVec.toNat_ofNat]; omega

theorem isDigit_digitByte {d : Nat} (h : d < 10) : isDigit (digitByte d) = true := by
  rw [isDigit_iff, toNat_digitByte h]; omega

theorem digitValue_digitByte {d : Nat} (h : d < 10) : digitValue (digitByte d) = d := by
  rw [digitValue, toNat_digitByte h]; omega

section
variable {fuel n : Nat}

theorem length_decimalDigits_le (fuel n : Nat) : (decimalDigits fuel n).length ≤ fuel := by
  induction fuel generalizing n with
  | zero => exact Nat.le_refl 0
  | succ fuel ih =>
    unfold decimalDigits
    split_ifs
    · simp
    · simpa using ih (n / 10)

theorem decimalDigits_succ_ne_nil (fuel n : Nat) : decimalDigits (fuel + 1) n ≠ [] := by
  unfold decimalDigits; split_ifs <;> simp

theorem isDigit_of_mem_decimalDigits : ∀ b ∈ decimalDigits fuel n, isDigit b = true := by
  induction fuel generalizing n with
  | zero => simp [decimalDigits]
  | succ fuel ih =>
    unfold decimalDigits
    split_ifs with hn
    · simpa using isDigit_digitByte hn
    · intro b hb
      obtain hb | hb := List.mem_append.mp hb
      · exact ih b hb
      · rw [List.mem_singleton.mp hb]
        exact isDigit_digitByte (Nat.mod_lt n (by decide))

/-- The digits spell the number (R131). -/
theorem decimalValue_decimalDigits (h : n < 10 ^ fuel) :
    decimalValue (decimalDigits fuel n) = n := by
  induction fuel generalizing n with
  | zero => simp_all [decimalDigits, decimalValue]
  | succ fuel ih =>
    unfold decimalDigits
    split_ifs with hn
    · exact (decimalValue_append_digit [] _).trans (by simp [decimalValue, digitValue_digitByte hn])
    · have hmod : n % 10 < 10 := Nat.mod_lt n (by decide)
      rw [decimalValue_append_digit, ih (by omega), digitValue_digitByte hmod]
      omega

/-- Only zero begins with the digit 0 (R131). -/
theorem eq_zero_of_head_decimalDigits (h : n < 10 ^ fuel)
    (hhead : (decimalDigits fuel n).head? = some 0x30) : n = 0 := by
  induction fuel generalizing n with
  | zero => simpa using h
  | succ fuel ih =>
    unfold decimalDigits at hhead
    split_ifs at hhead with hn
    · simpa [toNat_digitByte hn] using congrArg BitVec.toNat (Option.some.inj hhead)
    · have hrest : (decimalDigits fuel (n / 10)).head? = some 0x30 := by
        cases fuel with
        | zero => omega
        | succ fuel =>
          rwa [List.head?_append_of_ne_nil _ (decimalDigits_succ_ne_nil fuel _)] at hhead
      have := ih (by omega) hrest
      omega

end

theorem attempt_outu16 (s : State) :
    attempt .outu16 s = .done (s.emit (decimalLine (s.reg 0))) := rfl

/-- Settles O38: five digits are enough for a word, and `decimalDigits` has the properties R131
names. -/
theorem outu16EmitsDecimalLine : Obligations.Outu16EmitsDecimalLine := by
  intro ign s
  have hlt : (s.reg 0).toNat < 10 ^ 5 := Nat.lt_trans (s.reg 0).isLt (by decide)
  refine ⟨_, decimalDigits 5 (s.reg 0).toNat,
    exec_trap_of_done ofVector_outu16 (attempt_outu16 s) ign, (List.append_assoc _ _ _).symm,
    List.length_pos_of_ne_nil (decimalDigits_succ_ne_nil 4 _), length_decimalDigits_le 5 _,
    fun b hb => (isDigit_iff b).mp (isDigit_of_mem_decimalDigits b hb), fun hhead => ?_,
    decimalValue_decimalDigits hlt, rfl, rfl, rfl, emit_setOutstanding_serviceKeeps s _ none⟩
  rw [eq_zero_of_head_decimalDigits hlt hhead]; rfl

/-- Settles O39: what OUTU16 writes is a run of digits of a value that fits, ended by the newline,
which is no digit. -/
theorem inu16ReadsBackOutu16 : Obligations.Inu16ReadsBackOutu16 := by
  intro ign s t rest v ht hout
  obtain ⟨t', ds, ht', hline, hlen, -, hds, -, hvalue, -⟩ := outu16EmitsDecimalLine ign s
  obtain rfl : t = t' := Host.Outcome.next.inj (ht.symm.trans ht')
  have hinp : t.out ++ rest = [] ++ ds ++ 0x0A :: rest := by simp [hline, hout]
  obtain ⟨u, hu, hreg, hrest, -⟩ := inu16ReadsDecimal ign
    (State.setReg { t with inp := t.out ++ rest } 0 v) [] ds (0x0A :: rest) (by simp)
    (List.ne_nil_of_length_pos hlen) hds (by simp) hinp
    (hvalue.trans_le (Nat.le_of_lt_succ (s.reg 0).isLt))
  exact ⟨u, hu, BitVec.eq_of_toNat_eq (hreg.trans hvalue), hrest⟩

end Sys2Proof
